-- ==== Sys2Proof/Word.lean ====
section
/-! DEFINITION. The word types of PNGCF (spec/00_scope.md R8 to R10): every quantity is unsigned. -/

namespace Sys2Proof

/-- A byte, the smallest addressable unit (R8). -/
abbrev Byte := BitVec 8

/-- A `u32`: a length, a checksum, the CRC register (R8, R10). -/
abbrev Word32 := BitVec 32

/-- A `u64`: a command word, a response value, an error context register (R8, R10). -/
abbrev Word64 := BitVec 64

/-- One of the four type registers or one of the four chunk slots (`NT = NC = 4`, R8). -/
abbrev Index := Fin 4

end Sys2Proof
end

