-- ==== Sys2Proof/Machine/State.lean ====
section
/-! DEFINITION. The state of PNGCF as plain data (spec/10_state.md R20, R31, R40), the state right after reset, and the
reasons a step of the model can stop. The last two fields are the model's own: what the host still hands over and what
it was answered (spec/00_scope.md R6, R7; notes/assumptions/2.md and 3.md). -/

namespace Sys2Proof.Machine

/-- Four bytes in frame order: a chunk type code, or a 32-bit field of a frame (R11, R21, R61). -/
structure Quad where
  b0 : Byte
  b1 : Byte
  b2 : Byte
  b3 : Byte
  deriving DecidableEq, Repr

/-- A type register: its valid bit `tv[i]` and its four bytes (R21). -/
structure TypeReg where
  valid : Bool
  bytes : Quad
  deriving DecidableEq, Repr

/-- A chunk slot: its valid bit `cv[j]` and its four fields (R23). `data` is the byte sequence `DATA`, kept apart from
the count `LENGTH`, as in R20; that they agree in a full slot is an invariant (R25). -/
structure Slot where
  valid : Bool
  length : Word32
  type : Quad
  data : List Byte
  crc : Word32
  deriving DecidableEq, Repr

/-- A byte space, `IBUF` or `OBUF`: (offset, byte) pairs, offsets rising, no entry equal to what an unlisted offset
reads as (spec/20_memory.md R60; notes/assumptions/6.md). -/
abbrev Memory := List Host.Cell

/-- One response: a code and a value (spec/30_encoding.md R108). -/
structure Response where
  code : Byte
  rval : Word64
  deriving DecidableEq, Repr

/-- What the host can do to the block: hand over a command word (R6) or assert reset between commands (R280). -/
inductive HostAction where
  | command (w : Word64)
  | reset
  deriving DecidableEq, Repr

/-- The architectural state of R20, the parameter `MAXLEN`, and the two ends of the command port. -/
structure State where
  /-- The type registers `t[0..3]` (R21). -/
  t : Vector TypeReg 4
  /-- The chunk slots `c[0..3]` (R23). -/
  c : Vector Slot 4
  /-- `CRCR`, the running CRC remainder, reflected and not complemented (R28). -/
  crcr : Word32
  /-- `IBUF` (R29). -/
  ibuf : Memory
  /-- `ILEN`, the fill count of `IBUF` (R29). -/
  ilen : Nat
  /-- `OBUF` (R30). -/
  obuf : Memory
  /-- `OLEN`, the fill count of `OBUF` (R30). -/
  olen : Nat
  /-- `ORP`, the read pointer of `OBUF` (R30). -/
  orp : Nat
  /-- `STATUS.ERR`, the code of the last command other than a successful `RD` (R32). -/
  err : Byte
  /-- `STATUS.FLT`, the sticky fault bit (R32). -/
  flt : Bool
  /-- `EEXP`, the expected value of the last failure (R33). -/
  eexp : Word64
  /-- `EACT`, the actual value of the last failure (R33). -/
  eact : Word64
  /-- `MAXLEN`, the parameter, constant and readable as CSR 8 (R8, R31); notes/assumptions/1.md. -/
  maxlen : Word32
  /-- The model's own: what the host will do next, first to come first (notes/assumptions/2.md). -/
  pending : List HostAction
  /-- The model's own: the responses returned so far, the latest first (notes/assumptions/3.md). -/
  responses : List Response
  deriving DecidableEq, Repr

/-- Why a step of the model stops. The spec's own faults are not here: each is a response after which the block goes on
(spec/60_exceptions.md R242, R252), so each is a next state. -/
inductive Fault where
  /-- A store to an offset the buffer does not have. Raised by `IB.PUT` in a state with `ILEN > IBCAP` and by `CH.SER`,
  `CH.DATA`, `CH.DATASTR` on a slot with `LENGTH > MAXLEN`; R29 and R25(d) hold in every state a run reaches and rule
  both out. Safe: the model stops where the spec defines no store (R60). See notes/assumptions/7.md. -/
  | outsideCapacity
  deriving DecidableEq, Repr

/-- Why an instruction has no meaning. -/
inductive Refusal where
  /-- An instruction the model has no meaning for yet, by its mnemonic; raised by no arm, since every instruction has
  its meaning. Safe. -/
  | notModelled (mnemonic : String)
  deriving DecidableEq, Repr

/-- What a command or a step answers. -/
abbrev Result := Host.Outcome State Fault Refusal

/-- An empty type register; its bytes are unspecified and unobservable (R40; notes/assumptions/5.md). -/
def TypeReg.empty : TypeReg := ⟨false, ⟨0, 0, 0, 0⟩⟩

/-- An empty chunk slot; its fields are unspecified and unobservable (R40; notes/assumptions/5.md). -/
def Slot.empty : Slot := ⟨false, 0, ⟨0, 0, 0, 0⟩, [], 0⟩

/-- The state right after reset of a block whose parameter `MAXLEN` is `maxlen`, with no host action waiting and none
answered (R40, R280). -/
def State.resetWith (maxlen : Word32) : State where
  t := Vector.replicate 4 TypeReg.empty
  c := Vector.replicate 4 Slot.empty
  crcr := 0xFFFFFFFF
  ibuf := []
  ilen := 0
  obuf := []
  olen := 0
  orp := 0
  err := 0
  flt := false
  eexp := 0
  eact := 0
  maxlen := maxlen
  pending := []
  responses := []

/-- The machine right after reset; `MAXLEN` is the uninterpreted parameter (R8, R40). -/
def State.reset : State := State.resetWith Config.maxlen

end Sys2Proof.Machine
end

