-- ==== Sys2Proof/Machine/Ops.lean ====
section
/-! DEFINITION. The named operations over byte sequences, byte spaces and registers (spec/00_scope.md R11, R12,
spec/20_memory.md), and the two ways a command ends (spec/60_exceptions.md R243, R244). -/

namespace Sys2Proof.Machine

/-! ### Four-byte fields, big-endian (R11, R61, R62) -/

/-- The four bytes as a sequence, byte 0 first. -/
def Quad.toList (q : Quad) : List Byte := [q.b0, q.b1, q.b2, q.b3]

/-- Byte `k` of four. -/
def Quad.get (q : Quad) (k : Index) : Byte :=
  match k with
  | 0 => q.b0
  | 1 => q.b1
  | 2 => q.b2
  | 3 => q.b3

/-- `be32(s) = s[0]*2^24 + s[1]*2^16 + s[2]*2^8 + s[3]` (R11). -/
def be32 (q : Quad) : Word32 :=
  BitVec.ofNat 32 (q.b0.toNat * 2 ^ 24 + q.b1.toNat * 2 ^ 16 + q.b2.toNat * 2 ^ 8 + q.b3.toNat)

/-- `bytes_be32(v) = [v[31:24], v[23:16], v[15:8], v[7:0]]` (R11); also the four bytes of an AI32 immediate (R104). -/
def bytesBe32 (v : Word32) : Quad :=
  ⟨v.extractLsb' 24 8, v.extractLsb' 16 8, v.extractLsb' 8 8, v.extractLsb' 0 8⟩

/-- `zext_64` of a 32-bit value (R12). -/
def zext32 (v : Word32) : Word64 := v.setWidth 64

/-- `zext_64` of a byte (R12). -/
def zext8 (b : Byte) : Word64 := b.setWidth 64

/-- `zext_64` of a natural number; every count here is below `2^33` in a state that meets R29 and R30. -/
def zextNat (n : Nat) : Word64 := BitVec.ofNat 64 n

/-- A boolean result: 1 for true, 0 for false (R108). -/
def boolValue (p : Bool) : Word64 := if p then 1 else 0

/-! ### Byte spaces (R60) -/

/-- What an offset no entry lists reads as (notes/assumptions/6.md). -/
def Memory.unlisted : Byte := 0

/-- The byte at an offset. -/
def Memory.read : Memory → Nat → Byte
  | [], _ => Memory.unlisted
  | cell :: rest, a => if cell.1 = a then cell.2 else Memory.read rest a

/-- A new entry before the first entry of a higher offset. -/
def Memory.insert : Memory → Nat → Byte → Memory
  | [], a, b => [(a, b)]
  | cell :: rest, a, b => if a < cell.1 then (a, b) :: cell :: rest else cell :: Memory.insert rest a b

/-- The space without any entry for an offset. -/
def Memory.erase (m : Memory) (a : Nat) : Memory := m.filter (fun cell => cell.1 != a)

/-- One byte stored; a byte equal to what an unlisted offset reads as leaves no entry. -/
def Memory.write (m : Memory) (a : Nat) (b : Byte) : Memory :=
  if b = Memory.unlisted then m.erase a else (m.erase a).insert a b

/-- The canonical form: offsets strictly rising, no entry equal to what an unlisted offset reads as. -/
abbrev Memory.wf (m : Memory) : Prop :=
  m.Pairwise (fun x y => x.1 < y.1) ∧ ∀ cell ∈ m, cell.2 ≠ Memory.unlisted

/-- `MemRead(S, a, n)`: the bytes at offsets `a .. a+n-1` in that order (R60). -/
def memRead (m : Memory) (a n : Nat) : List Byte := (List.range n).map (fun k => m.read (a + k))

/-- `MemRead(S, a, 4)` as four bytes. -/
def memReadQuad (m : Memory) (a : Nat) : Quad := ⟨m.read a, m.read (a + 1), m.read (a + 2), m.read (a + 3)⟩

/-- A whole sequence stored from offset `a` on. -/
def memWriteAll (m : Memory) (a : Nat) : List Byte → Memory
  | [] => m
  | b :: bs => memWriteAll (m.write a b) (a + 1) bs

/-- `MemWrite(S, a, n, v)`: `v[k]` at offset `a + k` for `k < n` (R60). -/
def memWrite (m : Memory) (a n : Nat) (v : List Byte) : Memory := memWriteAll m a (v.take n)

/-- `IBCAP = OBCAP = MAXLEN + 12` (R8), a natural number (R10). -/
def State.bufferCapacity (s : State) : Nat := s.maxlen.toNat + 12

/-! ### Register files (R12) -/

/-- Type register `k` with its valid bit (R21). -/
def State.readT (s : State) (k : Index) : TypeReg := s.t[k]

/-- `t[k] <- y`; sets `tv[k]` (R12). -/
def State.writeT (s : State) (k : Index) (y : Quad) : State := { s with t := s.t.set k ⟨true, y⟩ }

/-- Chunk slot `k` with its valid bit (R23). -/
def State.readC (s : State) (k : Index) : Slot := s.c[k]

/-- `c[k] <- (LENGTH, TYPE, DATA, CRC)`, all four fields at once; sets `cv[k]` (R12). -/
def State.writeC (s : State) (k : Index) (length : Word32) (type : Quad) (data : List Byte) (crc : Word32) : State :=
  { s with c := s.c.set k ⟨true, length, type, data, crc⟩ }

/-! ### The end of a command -/

/-- The ten ways a command fails: five errors and five faults (R240). -/
inductive Cause where
  | invalidChunkType
  | checksumMismatch
  | lengthMismatch
  | bufferTooShort
  | invalidUtf8
  | illegalCommand
  | emptyOperand
  | capacityExceeded
  | readPastEnd
  | contractViolation
  deriving DecidableEq, Repr

/-- The response code of a failure (R240). -/
def Cause.code : Cause → Byte
  | .invalidChunkType => 0x01
  | .checksumMismatch => 0x02
  | .lengthMismatch => 0x03
  | .bufferTooShort => 0x04
  | .invalidUtf8 => 0x05
  | .illegalCommand => 0x80
  | .emptyOperand => 0x81
  | .capacityExceeded => 0x82
  | .readPastEnd => 0x83
  | .contractViolation => 0x84

/-- The faults are the causes that set `STATUS.FLT` (R240, R244). -/
def Cause.isFault : Cause → Bool
  | .invalidChunkType | .checksumMismatch | .lengthMismatch | .bufferTooShort | .invalidUtf8 => false
  | .illegalCommand | .emptyOperand | .capacityExceeded | .readPastEnd | .contractViolation => true

/-- The text a host shows for a code, where the source gives one (R240, 95_test_vectors V10). -/
def Cause.hostMessage : Cause → Option String
  | .invalidChunkType => some "Invalid chunk payload"
  | .checksumMismatch => some "Incoming check does not match computed checksum"
  | .lengthMismatch => some "Incoming length does not match computed length"
  | .bufferTooShort | .invalidUtf8 | .illegalCommand | .emptyOperand | .capacityExceeded | .readPastEnd
  | .contractViolation => none

/-- `respond(v)`: `STATUS.ERR`, `EEXP` and `EACT` become 0, `STATUS.FLT` stays, the response is `(0x00, v)` (R243). -/
def respond (v : Word64) (s : State) : Result :=
  .next { s with err := 0, eexp := 0, eact := 0, responses := ⟨0, v⟩ :: s.responses }

/-- A successful `RD`: the response and nothing else (R227, R243). -/
def respondOnly (v : Word64) (s : State) : Result := .next { s with responses := ⟨0, v⟩ :: s.responses }

/-- `raise <Kind>(exp, act)`: the one way a command fails. It writes the code, the context and, for a fault, the sticky
bit; the response is `(code, 0)`. No control goes anywhere and nothing is saved, so nothing returns (R244, R251, R252). -/
def raise (cause : Cause) (exp act : Word64) (s : State) : Result :=
  .next { s with
    err := cause.code
    flt := s.flt || cause.isFault
    eexp := exp
    eact := act
    responses := ⟨cause.code, 0⟩ :: s.responses }

/-- A fault: expected value 0, actual value the command word (R241, R244). -/
def raiseFault (cause : Cause) (word : Word64) (s : State) : Result := raise cause 0 word s

/-- A producing command delivers `n` bytes: `OBUF` as written, `OLEN <- n`, `ORP <- 0`, response `n` (R30, R186, R192).
A store past `OBCAP` has no meaning in the spec (R60); the model stops there (notes/assumptions/7.md). -/
def deliver (obuf : Memory) (n : Nat) (s : State) : Result :=
  if n ≤ s.bufferCapacity then respond (zextNat n) { s with obuf := obuf, olen := n, orp := 0 }
  else .fault .outsideCapacity

/-! ### Taking the host's next action -/

/-- Reset: every piece of state at its value of R40; the parameter stays, and so do the host's own two lists (R280;
notes/assumptions/4.md). -/
def takeReset (s : State) : State :=
  { State.resetWith s.maxlen with pending := s.pending, responses := s.responses }

end Sys2Proof.Machine
end

