-- ==== Sys2Proof/Machine/Flags.lean ====
section
/-! DEFINITION. The letter check, the property bits of a chunk type, and the status registers as `RD` shows them
(spec/41_chunktype.md R150, R151, spec/10_state.md R31 to R35). PNGCF has no arithmetic flag (R35). -/

namespace Sys2Proof.Machine

/-- `is_letter(b)`: `A`-`Z` or `a`-`z` (R150). -/
def isLetter (b : Byte) : Bool := (65 ≤ b.toNat && b.toNat ≤ 122) && !(90 < b.toNat && b.toNat < 97)

/-- All four bytes are letters (R22, R152). -/
def Quad.letters (q : Quad) : Bool := isLetter q.b0 && isLetter q.b1 && isLetter q.b2 && isLetter q.b3

/-- Bit 5 of a byte, by its mask `0x20` (R9, R151). -/
def bit5 (b : Byte) : Bool := (b &&& 0x20) != 0

/-- `critical`: bit 5 of byte 0 is clear (R151). -/
def critical (y : Quad) : Bool := !bit5 y.b0

/-- `public`: bit 5 of byte 1 is clear (R151). -/
def isPublic (y : Quad) : Bool := !bit5 y.b1

/-- `reserved_bit_valid`: bit 5 of byte 2 is clear (R151). -/
def reservedBitValid (y : Quad) : Bool := !bit5 y.b2

/-- `safe_to_copy`: bit 5 of byte 3 is set (R151). -/
def safeToCopy (y : Quad) : Bool := bit5 y.b3

/-- `valid` equals `reserved_bit_valid` (R151). -/
def typeValid (y : Quad) : Bool := reservedBitValid y

/-- `STATUS` as read: `ERR + 256*FLT`, bits 63:9 zero (R32, R227). -/
def statusWord (s : State) : Word64 := zextNat (s.err.toNat + 256 * s.flt.toNat)

/-- `VALID` as read: bit `i` is `tv[i]`, bit `8 + j` is `cv[j]`, every other bit zero (R34). -/
def validWord (s : State) : Word64 :=
  let tv (k : Index) : Nat := (s.readT k).valid.toNat
  let cv (k : Index) : Nat := (s.readC k).valid.toNat
  zextNat (tv 0 + 2 * tv 1 + 4 * tv 2 + 8 * tv 3 + 256 * cv 0 + 512 * cv 1 + 1024 * cv 2 + 2048 * cv 3)

/-- The value of CSR `n`, zero-extended to 64 bits; none where R31 lists no such number. -/
def csrValue (s : State) (n : Byte) : Option Word64 :=
  match n.toNat with
  | 0 => some (statusWord s)
  | 1 => some s.eexp
  | 2 => some s.eact
  | 3 => some (zext32 s.crcr)
  | 4 => some (zextNat s.ilen)
  | 5 => some (zextNat s.olen)
  | 6 => some (zextNat s.orp)
  | 7 => some (validWord s)
  | 8 => some (zext32 s.maxlen)
  | _ => none

end Sys2Proof.Machine
end

