-- ==== Sys2Proof/Syntax.lean ====
section
/-! DEFINITION. The 30 commands of PNGCF, one constructor per row of spec/opcode_table.json (spec/30_encoding.md R105),
their assembler text (R109) and the four pseudo-instructions (R110). Register operands are indices `0 .. 3` (R102). -/

namespace Sys2Proof

/-- A command with its operands, in the order of R105: destination, sources, immediate. -/
inductive Instr where
  | crcInit
  | crcUpd (b : Byte)
  | crcUpdb
  | crcFin
  | ctFrombytes (td : Index) (imm : Word32)
  | ctFromtext (td : Index)
  | ctBytes (ts : Index)
  | ctByte (ts : Index) (k : Index)
  | ctText (ts : Index)
  | ctIsvalid (ts : Index)
  | ctIscrit (ts : Index)
  | ctIspub (ts : Index)
  | ctIsrsv (ts : Index)
  | ctIssafe (ts : Index)
  | ctEq (ta tb : Index)
  | chNew (cd ts : Index)
  | chParse (cd : Index)
  | chSer (cs : Index)
  | chLen (cs : Index)
  | chOlen (cs : Index)
  | chType (td cs : Index)
  | chData (cs : Index)
  | chDatastr (cs : Index)
  | chCrc (cs : Index)
  | chEq (ca cb : Index)
  | ibClr
  | ibPut (b : Byte)
  | obRd
  | obRew
  | rd (csr : Byte)
  deriving DecidableEq, Repr

/-- The mnemonic of R105, as spec/opcode_table.json spells it. -/
def Instr.mnemonic : Instr → String
  | .crcInit => "CRC.INIT"
  | .crcUpd _ => "CRC.UPD"
  | .crcUpdb => "CRC.UPDB"
  | .crcFin => "CRC.FIN"
  | .ctFrombytes _ _ => "CT.FROMBYTES"
  | .ctFromtext _ => "CT.FROMTEXT"
  | .ctBytes _ => "CT.BYTES"
  | .ctByte _ _ => "CT.BYTE"
  | .ctText _ => "CT.TEXT"
  | .ctIsvalid _ => "CT.ISVALID"
  | .ctIscrit _ => "CT.ISCRIT"
  | .ctIspub _ => "CT.ISPUB"
  | .ctIsrsv _ => "CT.ISRSV"
  | .ctIssafe _ => "CT.ISSAFE"
  | .ctEq _ _ => "CT.EQ"
  | .chNew _ _ => "CH.NEW"
  | .chParse _ => "CH.PARSE"
  | .chSer _ => "CH.SER"
  | .chLen _ => "CH.LEN"
  | .chOlen _ => "CH.OLEN"
  | .chType _ _ => "CH.TYPE"
  | .chData _ => "CH.DATA"
  | .chDatastr _ => "CH.DATASTR"
  | .chCrc _ => "CH.CRC"
  | .chEq _ _ => "CH.EQ"
  | .ibClr => "IB.CLR"
  | .ibPut _ => "IB.PUT"
  | .obRd => "OB.RD"
  | .obRew => "OB.REW"
  | .rd _ => "RD"

/-- The assembler name of a type register, `t0` to `t3` (R109). -/
def asmT (k : Index) : String := "t" ++ toString k.val

/-- The assembler name of a chunk slot, `c0` to `c3` (R109). -/
def asmC (k : Index) : String := "c" ++ toString k.val

/-- The operands of a command in assembler order, immediates as decimal numbers (R109). -/
def Instr.operands : Instr → List String
  | .crcInit | .crcUpdb | .crcFin | .ibClr | .obRd | .obRew => []
  | .crcUpd b | .ibPut b | .rd b => [toString b.toNat]
  | .ctFrombytes td imm => [asmT td, toString imm.toNat]
  | .ctByte ts k => [asmT ts, toString k.val]
  | .ctFromtext t | .ctBytes t | .ctText t | .ctIsvalid t | .ctIscrit t | .ctIspub t | .ctIsrsv t
  | .ctIssafe t => [asmT t]
  | .ctEq ta tb => [asmT ta, asmT tb]
  | .chNew cd ts => [asmC cd, asmT ts]
  | .chType td cs => [asmT td, asmC cs]
  | .chParse c | .chSer c | .chLen c | .chOlen c | .chData c | .chDatastr c | .chCrc c => [asmC c]
  | .chEq ca cb => [asmC ca, asmC cb]

/-- The assembler line of a command: its mnemonic, then its operands separated by commas (R109). -/
def Instr.asm (i : Instr) : String :=
  match i.operands with
  | [] => i.mnemonic
  | os => i.mnemonic ++ " " ++ ", ".intercalate os

/-- The pseudo-instructions of R110. -/
inductive Pseudo where
  | ibLoad (bytes : List Byte)
  | ctFromstr (td : Index) (text : List Byte)
  | crcOf (bytes : List Byte)
  | obRead (n : Nat)
  deriving DecidableEq, Repr

/-- The commands a pseudo-instruction stands for, in order, with no other effect (R110). -/
def Pseudo.expand : Pseudo → List Instr
  | .ibLoad bytes => .ibClr :: bytes.map .ibPut
  | .ctFromstr td text => .ibClr :: text.map .ibPut ++ [.ctFromtext td]
  | .crcOf bytes => .crcInit :: bytes.map .crcUpd ++ [.crcFin]
  | .obRead n => List.replicate n .obRd

end Sys2Proof
end

