-- ==== Sys2Proof/WellFormed.lean ====
section
/-! DEFINITION. Well-formed commands. The operand types already hold every register index and byte index to `0 .. 3`
(spec/30_encoding.md R101, R102), so the one check left is the CSR number of `RD` (spec/10_state.md R31). -/

namespace Sys2Proof

/-- Every operand names something the block has. Only `RD` can fail this: "Every CSR number not in the table is
undefined" (R31). Such a command still encodes, decodes and executes: it answers `IllegalCommand` (R105, R227). -/
def Instr.wellFormed : Instr → Bool
  | .rd n => n.toNat ≤ 8
  | .crcInit | .crcUpd _ | .crcUpdb | .crcFin
  | .ctFrombytes _ _ | .ctFromtext _ | .ctBytes _ | .ctByte _ _ | .ctText _
  | .ctIsvalid _ | .ctIscrit _ | .ctIspub _ | .ctIsrsv _ | .ctIssafe _ | .ctEq _ _
  | .chNew _ _ | .chParse _ | .chSer _ | .chLen _ | .chOlen _ | .chType _ _
  | .chData _ | .chDatastr _ | .chCrc _ | .chEq _ _
  | .ibClr | .ibPut _ | .obRd | .obRew => true

end Sys2Proof
end

