-- ==== Sys2Proof/Decode.lean ====
section
/-! DEFINITION. Decoding and encoding of the 64-bit command word (spec/30_encoding.md Part B, R100 to R107) and the
opcode table (spec/opcode_table.json). The word arrives as one value on a port, so no byte order arises (R62). -/

namespace Sys2Proof

/-- Why a word is no command; each is the fault `IllegalCommand` (R106, R245). -/
inductive Illegal where
  /-- The opcode is not in R105. -/
  | unassignedOpcode (op : Nat)
  /-- A register field in use holds a number above 3 (R102). -/
  | registerField
  /-- A bit the format requires to be zero is set (R101, R103). -/
  | reservedBits
  deriving DecidableEq, Repr

/-- `w[lo + n - 1 : lo]` as an unsigned number (R9). -/
def bitField (w : Word64) (lo n : Nat) : Nat := w.toNat / 2 ^ lo % 2 ^ n

/-- The fields of R100. -/
structure Fields where
  op : Nat
  ra : Nat
  rb : Nat
  z : Nat
  imm : Nat
  deriving DecidableEq, Repr

/-- The five fields of a word (R100). -/
def fieldsOf (w : Word64) : Fields :=
  ⟨bitField w 56 8, bitField w 52 4, bitField w 48 4, bitField w 32 16, bitField w 0 32⟩

/-- Format N: every field but `OP` is zero (R101). -/
def formatN (f : Fields) (i : Instr) : Except Illegal Instr :=
  if f.ra = 0 ∧ f.rb = 0 ∧ f.z = 0 ∧ f.imm = 0 then .ok i else .error .reservedBits

/-- Formats I8 and K: `IMM[7:0]` is a byte, all else zero (R101, R104). -/
def formatByte (f : Fields) (k : Byte → Instr) : Except Illegal Instr :=
  if f.ra = 0 ∧ f.rb = 0 ∧ f.z = 0 ∧ f.imm < 256 then .ok (k (BitVec.ofNat 8 f.imm))
  else .error .reservedBits

/-- Format A: `RA` is a register index (R101, R102). -/
def formatA (f : Fields) (k : Index → Instr) : Except Illegal Instr :=
  if ¬ f.ra < 4 then .error .registerField
  else if f.rb = 0 ∧ f.z = 0 ∧ f.imm = 0 then .ok (k (Fin.ofNat 4 f.ra))
  else .error .reservedBits

/-- Format AI2: `RA` is a register index, `IMM[1:0]` a byte index (R101, R104). -/
def formatAI2 (f : Fields) (k : Index → Index → Instr) : Except Illegal Instr :=
  if ¬ f.ra < 4 then .error .registerField
  else if f.rb = 0 ∧ f.z = 0 ∧ f.imm < 4 then .ok (k (Fin.ofNat 4 f.ra) (Fin.ofNat 4 f.imm))
  else .error .reservedBits

/-- Format AI32: `RA` is a register index, `IMM` four bytes (R101, R104). -/
def formatAI32 (f : Fields) (k : Index → Word32 → Instr) : Except Illegal Instr :=
  if ¬ f.ra < 4 then .error .registerField
  else if f.rb = 0 ∧ f.z = 0 then .ok (k (Fin.ofNat 4 f.ra) (BitVec.ofNat 32 f.imm))
  else .error .reservedBits

/-- Format AB: `RA` and `RB` are register indices (R101, R102). -/
def formatAB (f : Fields) (k : Index → Index → Instr) : Except Illegal Instr :=
  if ¬ (f.ra < 4 ∧ f.rb < 4) then .error .registerField
  else if f.z = 0 ∧ f.imm = 0 then .ok (k (Fin.ofNat 4 f.ra) (Fin.ofNat 4 f.rb))
  else .error .reservedBits

/-- The command whose opcode is `f.op`, read in its format (R105); every other opcode is illegal (R106). -/
def decodeFields (f : Fields) : Except Illegal Instr :=
  match f.op with
  | 0x10 => formatN f .crcInit
  | 0x11 => formatByte f .crcUpd
  | 0x12 => formatN f .crcUpdb
  | 0x13 => formatN f .crcFin
  | 0x20 => formatAI32 f .ctFrombytes
  | 0x21 => formatA f .ctFromtext
  | 0x22 => formatA f .ctBytes
  | 0x23 => formatAI2 f .ctByte
  | 0x24 => formatA f .ctText
  | 0x25 => formatA f .ctIsvalid
  | 0x26 => formatA f .ctIscrit
  | 0x27 => formatA f .ctIspub
  | 0x28 => formatA f .ctIsrsv
  | 0x29 => formatA f .ctIssafe
  | 0x2A => formatAB f .ctEq
  | 0x30 => formatAB f .chNew
  | 0x31 => formatA f .chParse
  | 0x32 => formatA f .chSer
  | 0x33 => formatA f .chLen
  | 0x34 => formatA f .chOlen
  | 0x35 => formatAB f .chType
  | 0x36 => formatA f .chData
  | 0x37 => formatA f .chDatastr
  | 0x38 => formatA f .chCrc
  | 0x39 => formatAB f .chEq
  | 0x40 => formatN f .ibClr
  | 0x41 => formatByte f .ibPut
  | 0x42 => formatN f .obRd
  | 0x43 => formatN f .obRew
  | 0x48 => formatByte f .rd
  | op => .error (.unassignedOpcode op)

/-- The command a word encodes, or the reason it encodes none; total on all words (R103, R105, R106). -/
def decode (w : Word64) : Except Illegal Instr := decodeFields (fieldsOf w)

/-- `w = OP*2^56 + RA*2^52 + RB*2^48 + Z*2^32 + IMM` with `Z = 0` (R100). -/
def commandWord (op ra rb imm : Nat) : Word64 :=
  BitVec.ofNat 64 (op * 2 ^ 56 + ra * 2 ^ 52 + rb * 2 ^ 48 + imm)

/-- The word of a command (R101, R105). -/
def encode : Instr → Word64
  | .crcInit => commandWord 0x10 0 0 0
  | .crcUpd b => commandWord 0x11 0 0 b.toNat
  | .crcUpdb => commandWord 0x12 0 0 0
  | .crcFin => commandWord 0x13 0 0 0
  | .ctFrombytes td imm => commandWord 0x20 td.val 0 imm.toNat
  | .ctFromtext td => commandWord 0x21 td.val 0 0
  | .ctBytes ts => commandWord 0x22 ts.val 0 0
  | .ctByte ts k => commandWord 0x23 ts.val 0 k.val
  | .ctText ts => commandWord 0x24 ts.val 0 0
  | .ctIsvalid ts => commandWord 0x25 ts.val 0 0
  | .ctIscrit ts => commandWord 0x26 ts.val 0 0
  | .ctIspub ts => commandWord 0x27 ts.val 0 0
  | .ctIsrsv ts => commandWord 0x28 ts.val 0 0
  | .ctIssafe ts => commandWord 0x29 ts.val 0 0
  | .ctEq ta tb => commandWord 0x2A ta.val tb.val 0
  | .chNew cd ts => commandWord 0x30 cd.val ts.val 0
  | .chParse cd => commandWord 0x31 cd.val 0 0
  | .chSer cs => commandWord 0x32 cs.val 0 0
  | .chLen cs => commandWord 0x33 cs.val 0 0
  | .chOlen cs => commandWord 0x34 cs.val 0 0
  | .chType td cs => commandWord 0x35 td.val cs.val 0
  | .chData cs => commandWord 0x36 cs.val 0 0
  | .chDatastr cs => commandWord 0x37 cs.val 0 0
  | .chCrc cs => commandWord 0x38 cs.val 0 0
  | .chEq ca cb => commandWord 0x39 ca.val cb.val 0
  | .ibClr => commandWord 0x40 0 0 0
  | .ibPut b => commandWord 0x41 0 0 b.toNat
  | .obRd => commandWord 0x42 0 0 0
  | .obRew => commandWord 0x43 0 0 0
  | .rd csr => commandWord 0x48 0 0 csr.toNat

/-- A row of spec/opcode_table.json: a word is the row's command exactly when `w AND mask = pattern` (R105). -/
structure OpcodeRow where
  mnemonic : String
  mask : Word64
  pattern : Word64
  deriving DecidableEq, Repr

/-- The mask of format N (R105). -/
def maskN : Word64 := 0xFFFFFFFFFFFFFFFF
/-- The mask of formats I8 and K (R105). -/
def maskByte : Word64 := 0xFFFFFFFFFFFFFF00
/-- The mask of format A (R105). -/
def maskA : Word64 := 0xFFCFFFFFFFFFFFFF
/-- The mask of format AI2 (R105). -/
def maskAI2 : Word64 := 0xFFCFFFFFFFFFFFFC
/-- The mask of format AI32 (R105). -/
def maskAI32 : Word64 := 0xFFCFFFFF00000000
/-- The mask of format AB (R105). -/
def maskAB : Word64 := 0xFFCCFFFFFFFFFFFF

/-- The 30 rows of spec/opcode_table.json. -/
def opcodeTable : List OpcodeRow :=
  [⟨"CRC.INIT", maskN, 0x1000000000000000⟩,
   ⟨"CRC.UPD", maskByte, 0x1100000000000000⟩,
   ⟨"CRC.UPDB", maskN, 0x1200000000000000⟩,
   ⟨"CRC.FIN", maskN, 0x1300000000000000⟩,
   ⟨"CT.FROMBYTES", maskAI32, 0x2000000000000000⟩,
   ⟨"CT.FROMTEXT", maskA, 0x2100000000000000⟩,
   ⟨"CT.BYTES", maskA, 0x2200000000000000⟩,
   ⟨"CT.BYTE", maskAI2, 0x2300000000000000⟩,
   ⟨"CT.TEXT", maskA, 0x2400000000000000⟩,
   ⟨"CT.ISVALID", maskA, 0x2500000000000000⟩,
   ⟨"CT.ISCRIT", maskA, 0x2600000000000000⟩,
   ⟨"CT.ISPUB", maskA, 0x2700000000000000⟩,
   ⟨"CT.ISRSV", maskA, 0x2800000000000000⟩,
   ⟨"CT.ISSAFE", maskA, 0x2900000000000000⟩,
   ⟨"CT.EQ", maskAB, 0x2A00000000000000⟩,
   ⟨"CH.NEW", maskAB, 0x3000000000000000⟩,
   ⟨"CH.PARSE", maskA, 0x3100000000000000⟩,
   ⟨"CH.SER", maskA, 0x3200000000000000⟩,
   ⟨"CH.LEN", maskA, 0x3300000000000000⟩,
   ⟨"CH.OLEN", maskA, 0x3400000000000000⟩,
   ⟨"CH.TYPE", maskAB, 0x3500000000000000⟩,
   ⟨"CH.DATA", maskA, 0x3600000000000000⟩,
   ⟨"CH.DATASTR", maskA, 0x3700000000000000⟩,
   ⟨"CH.CRC", maskA, 0x3800000000000000⟩,
   ⟨"CH.EQ", maskAB, 0x3900000000000000⟩,
   ⟨"IB.CLR", maskN, 0x4000000000000000⟩,
   ⟨"IB.PUT", maskByte, 0x4100000000000000⟩,
   ⟨"OB.RD", maskN, 0x4200000000000000⟩,
   ⟨"OB.REW", maskN, 0x4300000000000000⟩,
   ⟨"RD", maskByte, 0x4800000000000000⟩]

/-- The command word that `nbits` bits of the opcode table's numbering stand for; bits above `nbits` are zero. -/
def tableWord (nbits w : Nat) : Word64 := BitVec.ofNat 64 (w % 2 ^ nbits)

/-- What `decode` reads from a word numbered as spec/opcode_table.json numbers it; `none` where it refuses. -/
def decodeTableWord (nbits w : Nat) : Option Instr :=
  match decode (tableWord nbits w) with
  | .ok i => some i
  | .error _ => none

end Sys2Proof
end

