-- ==== Sys2Proof/Machine/Operands.lean ====
section
/-! DEFINITION. The operand forms of the commands: a full type register, a full chunk slot, the whole input buffer, a
byte index and a four-byte immediate (spec/00_scope.md R12, R13, spec/30_encoding.md R104, spec/60_exceptions.md R246). -/

namespace Sys2Proof.Machine

/-- A fault of command `i`: the word recorded is the command's own, which `encode` gives back exactly (R241;
notes/assumptions/10.md). -/
def faultOf (i : Instr) (cause : Cause) (s : State) : Result := raiseFault cause (encode i) s

/-- A source type register: command `i` faults `EmptyOperand` when it is empty (R246), else goes on with its bytes. -/
def withType (i : Instr) (ts : Index) (s : State) (go : Quad → Result) : Result :=
  if (s.readT ts).valid then go (s.readT ts).bytes else faultOf i .emptyOperand s

/-- A source chunk slot: command `i` faults `EmptyOperand` when it is empty (R246), else goes on with its fields. -/
def withSlot (i : Instr) (cs : Index) (s : State) (go : Slot → Result) : Result :=
  if (s.readC cs).valid then go (s.readC cs) else faultOf i .emptyOperand s

/-- The input buffer's valid bytes, `IBUF[0, ILEN)` (R29). -/
def inputBytes (s : State) : List Byte := memRead s.ibuf 0 s.ilen

/-- The four type bytes of an AI32 immediate, `b0 = IMM[31:24]` first (R104). -/
def immediateBytes (imm : Word32) : Quad := bytesBe32 imm

end Sys2Proof.Machine
end

