-- ==== Sys2Proof/Machine/BufferSystem.lean ====
section
/-! DEFINITION. The five buffer and system commands (spec/43_buffer_system.md R223 to R227). -/

namespace Sys2Proof.Machine

/-- `IB.CLR`: the bytes stay where they are, unreadable above `ILEN` (R223). -/
def execIbClr (s : State) : Result := respond 0 { s with ilen := 0 }

/-- `IB.PUT imm8`: the store at `ILEN`, then the new fill count as the response (R224, R75). An offset the buffer does
not have takes no store (R60; notes/assumptions/7.md). -/
def execIbPut (b : Byte) (s : State) : Result :=
  if s.ilen = s.bufferCapacity then faultOf (.ibPut b) .capacityExceeded s
  else if s.bufferCapacity < s.ilen then .fault .outsideCapacity
  else respond (zextNat (s.ilen + 1)) { s with ibuf := memWrite s.ibuf s.ilen 1 [b], ilen := s.ilen + 1 }

/-- `OB.RD`: the one read with a side effect (R225, R66). -/
def execObRd (s : State) : Result :=
  if s.orp ≥ s.olen then faultOf .obRd .readPastEnd s
  else respond (zext8 (s.obuf.read s.orp)) { s with orp := s.orp + 1 }

/-- `OB.REW` (R226). -/
def execObRew (s : State) : Result := respond (zextNat s.olen) { s with orp := 0 }

/-- `RD csr`: a success writes no state at all; an undefined number faults as every fault (R227). -/
def execRd (csr : Byte) (s : State) : Result :=
  match csrValue s csr with
  | some v => respondOnly v s
  | none => faultOf (.rd csr) .illegalCommand s

end Sys2Proof.Machine
end

