-- ==== Sys2Proof/Machine/ChunkTypeUnit.lean ====
section
/-! DEFINITION. The eleven ChunkType commands (spec/41_chunktype.md R152 to R164). -/

namespace Sys2Proof.Machine

/-- The constructor both `CT.FROMBYTES` and `CT.FROMTEXT` end in: `InvalidChunkType` when any of the four bytes is no
letter, else the register is replaced as a whole (R152, R154). -/
def constructType (td : Index) (y : Quad) (s : State) : Result :=
  if y.letters then respond 0 (s.writeT td y) else raise .invalidChunkType 0 (zext32 (be32 y)) s

/-- A query that answers from the bytes of one full type register and changes nothing else. -/
def queryType (i : Instr) (ts : Index) (answer : Quad → Word64) (s : State) : Result :=
  withType i ts s fun y => respond (answer y) s

/-- `CT.FROMBYTES td, imm32` (R152). -/
def execCtFrombytes (td : Index) (imm : Word32) (s : State) : Result := constructType td (immediateBytes imm) s

/-- `CT.FROMTEXT td`: the length test comes before the letter test (R154). -/
def execCtFromtext (td : Index) (s : State) : Result :=
  if s.ilen ≠ 4 then faultOf (.ctFromtext td) .contractViolation s
  else constructType td (memReadQuad s.ibuf 0) s

/-- `CT.BYTES ts` (R156). -/
def execCtBytes (ts : Index) (s : State) : Result := queryType (.ctBytes ts) ts (fun y => zext32 (be32 y)) s

/-- `CT.BYTE ts, i` (R157). -/
def execCtByte (ts k : Index) (s : State) : Result := queryType (.ctByte ts k) ts (fun y => zext8 (y.get k)) s

/-- `CT.TEXT ts`: the four ASCII codes, packed as by `CT.BYTES` (R158). -/
def execCtText (ts : Index) (s : State) : Result := queryType (.ctText ts) ts (fun y => zext32 (be32 y)) s

/-- `CT.ISVALID ts` (R159). -/
def execCtIsvalid (ts : Index) (s : State) : Result :=
  queryType (.ctIsvalid ts) ts (fun y => boolValue (typeValid y)) s

/-- `CT.ISCRIT ts` (R160). -/
def execCtIscrit (ts : Index) (s : State) : Result :=
  queryType (.ctIscrit ts) ts (fun y => boolValue (critical y)) s

/-- `CT.ISPUB ts` (R161). -/
def execCtIspub (ts : Index) (s : State) : Result :=
  queryType (.ctIspub ts) ts (fun y => boolValue (isPublic y)) s

/-- `CT.ISRSV ts` (R162). -/
def execCtIsrsv (ts : Index) (s : State) : Result :=
  queryType (.ctIsrsv ts) ts (fun y => boolValue (reservedBitValid y)) s

/-- `CT.ISSAFE ts`: set means true (R163). -/
def execCtIssafe (ts : Index) (s : State) : Result :=
  queryType (.ctIssafe ts) ts (fun y => boolValue (safeToCopy y)) s

/-- `CT.EQ ta, tb`: equal iff the four bytes are equal (R153, R164). -/
def execCtEq (ta tb : Index) (s : State) : Result :=
  withType (.ctEq ta tb) ta s fun y =>
  withType (.ctEq ta tb) tb s fun z =>
    respond (boolValue (decide (y = z))) s

end Sys2Proof.Machine
end

