-- ==== Sys2Proof/Machine/Checksum.lean ====
section
/-! DEFINITION. CRC-32/ISO-HDLC as a stateless function of bytes (spec/40_crc.md R130 to R134). The spec supplies the
constants from general knowledge and checks them by the source's fixture (R131, G1; notes/assumptions/8.md). -/

namespace Sys2Proof.Machine

/-- The polynomial in reflected form (R131). -/
def crcPolynomial : Word32 := 0xEDB88320

/-- The initial register value (R131). -/
def crcInitial : Word32 := 0xFFFFFFFF

/-- The final XOR (R131). -/
def crcFinalXor : Word32 := 0xFFFFFFFF

/-- One of the eight shifts of the byte step (R132). -/
def crcShift (r : Word32) : Word32 := if r.getLsbD 0 then (r >>> 1) ^^^ crcPolynomial else r >>> 1

/-- `n` shifts. -/
def crcShifts : Nat → Word32 → Word32
  | 0, r => r
  | n + 1, r => crcShifts n (crcShift r)

/-- `crc_step(r, b)`: the byte enters at the low 8 bits, then eight shifts (R132). -/
def crcStep (r : Word32) (b : Byte) : Word32 := crcShifts 8 (r ^^^ b.setWidth 32)

/-- `crc_run(r, s)`: the register after every byte of `s` in order (R135). -/
def crcRun (r : Word32) (bytes : List Byte) : Word32 := bytes.foldl crcStep r

/-- `crc32(s)` (R134). -/
def crc32 (bytes : List Byte) : Word32 := crcRun crcInitial bytes ^^^ crcFinalXor

/-- The checksum of a chunk: type bytes first, then payload (R25, R181). -/
def chunkChecksum (type : Quad) (data : List Byte) : Word32 := crc32 (type.toList ++ data)

end Sys2Proof.Machine
end

