-- ==== Sys2Proof/Machine/Utf8.lean ====
section
/-! DEFINITION. UTF-8 validity of a byte sequence, decided by a left-to-right scan over the table of spec/42_chunk.md
R198, which the spec supplies from general knowledge (G2; notes/assumptions/8.md). -/

namespace Sys2Proof.Machine

/-- `lo <= b <= hi`. -/
def inRange (b : Byte) (lo hi : Nat) : Bool := lo ≤ b.toNat && b.toNat ≤ hi

/-- `80..BF`, the range of every third and fourth byte. -/
def isTail (b : Byte) : Bool := inRange b 0x80 0xBF

/-- A whole one-byte pattern of R198. -/
def utf8One (b0 : Byte) : Bool := inRange b0 0x00 0x7F

/-- A whole two-byte pattern of R198. -/
def utf8Two (b0 b1 : Byte) : Bool := inRange b0 0xC2 0xDF && isTail b1

/-- A whole three-byte pattern of R198: the four rows for `E0`, `E1..EC`, `ED`, `EE..EF`. -/
def utf8Three (b0 b1 b2 : Byte) : Bool :=
  (inRange b0 0xE0 0xE0 && inRange b1 0xA0 0xBF
    || inRange b0 0xE1 0xEC && isTail b1
    || inRange b0 0xED 0xED && inRange b1 0x80 0x9F
    || inRange b0 0xEE 0xEF && isTail b1) && isTail b2

/-- A whole four-byte pattern of R198: the three rows for `F0`, `F1..F3`, `F4`. -/
def utf8Four (b0 b1 b2 b3 : Byte) : Bool :=
  (inRange b0 0xF0 0xF0 && inRange b1 0x90 0xBF
    || inRange b0 0xF1 0xF3 && isTail b1
    || inRange b0 0xF4 0xF4 && inRange b1 0x80 0x8F) && isTail b2 && isTail b3

/-- `Utf8Valid(s)`: the scan takes one whole pattern after another to the end (R198). -/
def utf8Valid : List Byte → Bool
  | [] => true
  | b0 :: rest0 =>
    if utf8One b0 then utf8Valid rest0
    else match rest0 with
      | [] => false
      | b1 :: rest1 =>
        if utf8Two b0 b1 then utf8Valid rest1
        else match rest1 with
          | [] => false
          | b2 :: rest2 =>
            if utf8Three b0 b1 b2 then utf8Valid rest2
            else match rest2 with
              | [] => false
              | b3 :: rest3 => if utf8Four b0 b1 b2 b3 then utf8Valid rest3 else false

/-- The largest `p <= limit` with `Utf8Valid(d[0, p))` (R194); 0 always qualifies. -/
def longestValidPrefix (d : List Byte) : Nat → Nat
  | 0 => 0
  | p + 1 => if utf8Valid (d.take (p + 1)) then p + 1 else longestValidPrefix d p

end Sys2Proof.Machine
end

