-- ==== Sys2Proof/Machine/ChunkUnit.lean ====
section
/-! DEFINITION. The ten Chunk commands (spec/42_chunk.md R181 to R196). None reads or writes `CRCR` (spec/40_crc.md
R142). -/

namespace Sys2Proof.Machine

/-- `CH.NEW cd, ts`: the payload is `IBUF[0, ILEN)` (R181). -/
def execChNew (cd ts : Index) (s : State) : Result :=
  withType (.chNew cd ts) ts s fun y =>
    if s.ilen > s.maxlen.toNat then faultOf (.chNew cd ts) .capacityExceeded s
    else
      let d := inputBytes s
      respond 0 (s.writeC cd (BitVec.ofNat 32 s.ilen) y d (chunkChecksum y d))

/-- `CH.PARSE cd`, in the source's steps, each slice checked just before it is taken (R184, R250). The last test is the
"defensive consistency gate" the source requires, although it can never fail. -/
def execChParse (cd : Index) (s : State) : Result :=
  let n := s.ilen
  if n < 8 then raise .bufferTooShort (zextNat 8) (zextNat n) s
  else
    let l := (be32 (memReadQuad s.ibuf 0)).toNat
    let y := memReadQuad s.ibuf 4
    if ¬ y.letters then raise .invalidChunkType 0 (zext32 (be32 y)) s
    else if n < 12 + l then raise .bufferTooShort (zextNat (12 + l)) (zextNat n) s
    else
      let d := memRead s.ibuf 8 l
      let k := be32 (memReadQuad s.ibuf (8 + l))
      let k2 := chunkChecksum y d
      if k2 ≠ k then raise .checksumMismatch (zext32 k2) (zext32 k) s
      else if d.length ≠ l then raise .lengthMismatch (zextNat d.length) (zextNat l) s
      else respond 0 (s.writeC cd (BitVec.ofNat 32 d.length) y d k2)

/-- The frame of a slot stored into a byte space from offset 0: the four `MemWrite` of R186. -/
def storeFrame (m : Memory) (slot : Slot) : Memory :=
  let l := slot.length.toNat
  let m1 := memWrite m 0 4 (bytesBe32 slot.length).toList
  let m2 := memWrite m1 4 4 slot.type.toList
  let m3 := memWrite m2 8 l slot.data
  memWrite m3 (8 + l) 4 (bytesBe32 slot.crc).toList

/-- The payload of a slot stored into a byte space from offset 0 (R192, R194). -/
def storePayload (m : Memory) (slot : Slot) : Memory := memWrite m 0 slot.length.toNat slot.data

/-- A query that answers from one full slot and changes nothing else. -/
def querySlot (i : Instr) (cs : Index) (answer : Slot → Word64) (s : State) : Result :=
  withSlot i cs s fun slot => respond (answer slot) s

/-- `CH.SER cs`; the stored checksum is written as it stands (R186). -/
def execChSer (cs : Index) (s : State) : Result :=
  withSlot (.chSer cs) cs s fun slot => deliver (storeFrame s.obuf slot) (12 + slot.length.toNat) s

/-- `CH.LEN cs` (R188). -/
def execChLen (cs : Index) (s : State) : Result := querySlot (.chLen cs) cs (fun slot => zext32 slot.length) s

/-- `CH.OLEN cs`: `LENGTH + 12` without wrap (R189). -/
def execChOlen (cs : Index) (s : State) : Result :=
  querySlot (.chOlen cs) cs (fun slot => zextNat (slot.length.toNat + 12)) s

/-- `CH.TYPE td, cs`: a copy, and the bytes as the response (R190). -/
def execChType (td cs : Index) (s : State) : Result :=
  withSlot (.chType td cs) cs s fun slot => respond (zext32 (be32 slot.type)) (s.writeT td slot.type)

/-- `CH.DATA cs` (R192). -/
def execChData (cs : Index) (s : State) : Result :=
  withSlot (.chData cs) cs s fun slot => deliver (storePayload s.obuf slot) slot.length.toNat s

/-- `CH.DATASTR cs`: as `CH.DATA` when the payload is valid UTF-8, else `InvalidUtf8` with the length of its longest
valid prefix (R194). -/
def execChDatastr (cs : Index) (s : State) : Result :=
  withSlot (.chDatastr cs) cs s fun slot =>
    let l := slot.length.toNat
    if ¬ utf8Valid slot.data then raise .invalidUtf8 0 (zextNat (longestValidPrefix slot.data l)) s
    else deliver (storePayload s.obuf slot) l s

/-- `CH.CRC cs` (R195). -/
def execChCrc (cs : Index) (s : State) : Result := querySlot (.chCrc cs) cs (fun slot => zext32 slot.crc) s

/-- `CH.EQ ca, cb`: same length, type, data and checksum (R180, R196). -/
def execChEq (ca cb : Index) (s : State) : Result :=
  withSlot (.chEq ca cb) ca s fun x =>
  withSlot (.chEq ca cb) cb s fun y =>
    respond (boolValue (decide (x.length = y.length) && decide (x.type = y.type)
      && decide (x.data = y.data) && decide (x.crc = y.crc))) s

end Sys2Proof.Machine
end

