-- ==== Sys2Proof/Machine/CrcUnit.lean ====
section
/-! DEFINITION. The four CRC commands (spec/40_crc.md R136 to R139). -/

namespace Sys2Proof.Machine

/-- `CRC.INIT` (R136). -/
def execCrcInit (s : State) : Result := respond 0 { s with crcr := crcInitial }

/-- `CRC.UPD imm8` (R137). -/
def execCrcUpd (b : Byte) (s : State) : Result := respond 0 { s with crcr := crcStep s.crcr b }

/-- `CRC.UPDB` (R138). -/
def execCrcUpdb (s : State) : Result := respond 0 { s with crcr := crcRun s.crcr (inputBytes s) }

/-- `CRC.FIN`: the digest may be continued afterwards (R139). -/
def execCrcFin (s : State) : Result := respond (zext32 (s.crcr ^^^ crcFinalXor)) s

end Sys2Proof.Machine
end

