-- ==== Sys2Proof/Machine/Dispatch.lean ====
section
/-! DEFINITION. One arm per command of Instr; every arm is one call of its meaning. -/

namespace Sys2Proof.Machine

def exec (i : Instr) (s : State) : Host.Outcome State Fault Refusal :=
  match i with
  | .crcInit => Sys2Proof.Machine.execCrcInit s
  | .crcUpd b => Sys2Proof.Machine.execCrcUpd b s
  | .crcUpdb => Sys2Proof.Machine.execCrcUpdb s
  | .crcFin => Sys2Proof.Machine.execCrcFin s
  | .ctFrombytes td imm => Sys2Proof.Machine.execCtFrombytes td imm s
  | .ctFromtext td => Sys2Proof.Machine.execCtFromtext td s
  | .ctBytes ts => Sys2Proof.Machine.execCtBytes ts s
  | .ctByte ts k => Sys2Proof.Machine.execCtByte ts k s
  | .ctText ts => Sys2Proof.Machine.execCtText ts s
  | .ctIsvalid ts => Sys2Proof.Machine.execCtIsvalid ts s
  | .ctIscrit ts => Sys2Proof.Machine.execCtIscrit ts s
  | .ctIspub ts => Sys2Proof.Machine.execCtIspub ts s
  | .ctIsrsv ts => Sys2Proof.Machine.execCtIsrsv ts s
  | .ctIssafe ts => Sys2Proof.Machine.execCtIssafe ts s
  | .ctEq ta tb => Sys2Proof.Machine.execCtEq ta tb s
  | .chNew cd ts => Sys2Proof.Machine.execChNew cd ts s
  | .chParse cd => Sys2Proof.Machine.execChParse cd s
  | .chSer cs => Sys2Proof.Machine.execChSer cs s
  | .chLen cs => Sys2Proof.Machine.execChLen cs s
  | .chOlen cs => Sys2Proof.Machine.execChOlen cs s
  | .chType td cs => Sys2Proof.Machine.execChType td cs s
  | .chData cs => Sys2Proof.Machine.execChData cs s
  | .chDatastr cs => Sys2Proof.Machine.execChDatastr cs s
  | .chCrc cs => Sys2Proof.Machine.execChCrc cs s
  | .chEq ca cb => Sys2Proof.Machine.execChEq ca cb s
  | .ibClr => Sys2Proof.Machine.execIbClr s
  | .ibPut b => Sys2Proof.Machine.execIbPut b s
  | .obRd => Sys2Proof.Machine.execObRd s
  | .obRew => Sys2Proof.Machine.execObRew s
  | .rd csr => Sys2Proof.Machine.execRd csr s

end Sys2Proof.Machine
end

