-- ==== Sys2Proof/Machine/Step.lean ====
section
/-! DEFINITION. One step: the block takes the host's next action (spec/00_scope.md R6, R7). A command word is decoded and
executed whole; a word that is no command faults `IllegalCommand` (spec/60_exceptions.md R245); reset puts the reset
state (spec/70_reset_and_hazards.md R280); with no action waiting the block is idle and keeps all state (R263). -/

namespace Sys2Proof.Machine

def step (s : State) : Host.Outcome State Fault Refusal :=
  match s.pending with
  | [] => .next s
  | .reset :: rest => .next (takeReset { s with pending := rest })
  | .command w :: rest =>
    match decode w with
    | .ok i => exec i { s with pending := rest }
    | .error _ => raiseFault .illegalCommand w { s with pending := rest }

/-- The state in which the host's next action is the command whose table bits are `w` (notes/assumptions/2.md). -/
def State.withFetchWord (s : State) (nbits w : Nat) : State :=
  { s with pending := .command (tableWord nbits w) :: s.pending }

end Sys2Proof.Machine
end

