-- ==== Sys2Proof/Safety.lean ====
section
/-! DEFINITION. The terms the claims are stated in: the states a command ends in (spec/60_exceptions.md R243, R244), which
registers a command reads and writes (R246, spec/10_state.md R27 to R30), the invariant of every state a run reaches
(R22, R25, R29, R30, R240), what a response can depend on (spec/93 U12), commands in list order (spec/70 R286), and the
grammar of UTF-8 (spec/42 R198). Nothing here is used by the machine. -/

namespace Sys2Proof.Machine

/-! ### How a command ends -/

/-- The state `s` after a success with result `v`, on top of the command's own writes (R243). -/
def answered (v : Word64) (s : State) : State :=
  { s with err := 0, eexp := 0, eact := 0, responses := ⟨0, v⟩ :: s.responses }

/-- The state `s` after a failure with a code: bit 7 of the code marks the faults, which set `FLT` (R32, R244). -/
def failedWith (code : Byte) (exp act : Word64) (s : State) : State :=
  { s with
    err := code
    flt := s.flt || code.getLsbD 7
    eexp := exp
    eact := act
    responses := ⟨code, 0⟩ :: s.responses }

/-- The codes a command can answer with: success, five errors, five faults (R240). `0x03` is in the table, although no
command produces it (R184). -/
def legalCodes : List Byte := [0x00, 0x01, 0x02, 0x03, 0x04, 0x05, 0x80, 0x81, 0x82, 0x83, 0x84]

/-! ### What a command names -/

/-- The type registers a command names as sources (R246). -/
def typeSources : Instr → List Index
  | .ctBytes ts | .ctByte ts _ | .ctText ts | .ctIsvalid ts | .ctIscrit ts | .ctIspub ts | .ctIsrsv ts
  | .ctIssafe ts => [ts]
  | .ctEq ta tb => [ta, tb]
  | .chNew _ ts => [ts]
  | .crcInit | .crcUpd _ | .crcUpdb | .crcFin | .ctFrombytes _ _ | .ctFromtext _ | .chParse _ | .chSer _
  | .chLen _ | .chOlen _ | .chType _ _ | .chData _ | .chDatastr _ | .chCrc _ | .chEq _ _ | .ibClr | .ibPut _
  | .obRd | .obRew | .rd _ => []

/-- The chunk slots a command names as sources (R246). -/
def slotSources : Instr → List Index
  | .chSer cs | .chLen cs | .chOlen cs | .chType _ cs | .chData cs | .chDatastr cs | .chCrc cs => [cs]
  | .chEq ca cb => [ca, cb]
  | .crcInit | .crcUpd _ | .crcUpdb | .crcFin | .ctFrombytes _ _ | .ctFromtext _ | .ctBytes _ | .ctByte _ _
  | .ctText _ | .ctIsvalid _ | .ctIscrit _ | .ctIspub _ | .ctIsrsv _ | .ctIssafe _ | .ctEq _ _ | .chNew _ _
  | .chParse _ | .ibClr | .ibPut _ | .obRd | .obRew | .rd _ => []

/-- Some source of the command is empty (R246). -/
abbrev emptySource (i : Instr) (s : State) : Prop :=
  (∃ k ∈ typeSources i, (s.readT k).valid = false) ∨ (∃ k ∈ slotSources i, (s.readC k).valid = false)

/-- The type register a command constructs into (R21). -/
def typeDestination : Instr → Option Index
  | .ctFrombytes td _ | .ctFromtext td | .chType td _ => some td
  | .crcInit | .crcUpd _ | .crcUpdb | .crcFin | .ctBytes _ | .ctByte _ _ | .ctText _ | .ctIsvalid _
  | .ctIscrit _ | .ctIspub _ | .ctIsrsv _ | .ctIssafe _ | .ctEq _ _ | .chNew _ _ | .chParse _ | .chSer _
  | .chLen _ | .chOlen _ | .chData _ | .chDatastr _ | .chCrc _ | .chEq _ _ | .ibClr | .ibPut _ | .obRd
  | .obRew | .rd _ => none

/-- The chunk slot a command constructs into (R23). -/
def slotDestination : Instr → Option Index
  | .chNew cd _ | .chParse cd => some cd
  | .crcInit | .crcUpd _ | .crcUpdb | .crcFin | .ctFrombytes _ _ | .ctFromtext _ | .ctBytes _ | .ctByte _ _
  | .ctText _ | .ctIsvalid _ | .ctIscrit _ | .ctIspub _ | .ctIsrsv _ | .ctIssafe _ | .ctEq _ _ | .chSer _
  | .chLen _ | .chOlen _ | .chType _ _ | .chData _ | .chDatastr _ | .chCrc _ | .chEq _ _ | .ibClr | .ibPut _
  | .obRd | .obRew | .rd _ => none

/-- The commands that write `CRCR` (R28). -/
def writesCrcr : Instr → Bool
  | .crcInit | .crcUpd _ | .crcUpdb => true
  | .crcFin | .ctFrombytes _ _ | .ctFromtext _ | .ctBytes _ | .ctByte _ _ | .ctText _ | .ctIsvalid _
  | .ctIscrit _ | .ctIspub _ | .ctIsrsv _ | .ctIssafe _ | .ctEq _ _ | .chNew _ _ | .chParse _ | .chSer _
  | .chLen _ | .chOlen _ | .chType _ _ | .chData _ | .chDatastr _ | .chCrc _ | .chEq _ _ | .ibClr | .ibPut _
  | .obRd | .obRew | .rd _ => false

/-- The commands that write `OBUF` and `OLEN` (R30). -/
def producesOutput : Instr → Bool
  | .chSer _ | .chData _ | .chDatastr _ => true
  | .crcInit | .crcUpd _ | .crcUpdb | .crcFin | .ctFrombytes _ _ | .ctFromtext _ | .ctBytes _ | .ctByte _ _
  | .ctText _ | .ctIsvalid _ | .ctIscrit _ | .ctIspub _ | .ctIsrsv _ | .ctIssafe _ | .ctEq _ _ | .chNew _ _
  | .chParse _ | .chLen _ | .chOlen _ | .chType _ _ | .chCrc _ | .chEq _ _ | .ibClr | .ibPut _ | .obRd | .obRew
  | .rd _ => false

/-! ### The invariant of every reachable state -/

/-- A full chunk slot's invariants (a) to (d) (R25). -/
structure SlotInvariant (maxlen : Word32) (slot : Slot) : Prop where
  length_eq : slot.length.toNat = slot.data.length
  crc_eq : slot.crc = chunkChecksum slot.type slot.data
  letters : slot.type.letters = true
  length_le : slot.length.toNat ≤ maxlen.toNat

/-- What holds in every state a run reaches: full type registers hold letters (R22), full slots meet R25, the counts
stay inside the buffers (R29, R30), both byte spaces are in canonical form and list no offset outside the capacity,
`STATUS.ERR` is a code of R240, and a fault code never stands without `FLT` (R32). -/
structure Invariant (s : State) : Prop where
  types : ∀ k, (s.readT k).valid = true → (s.readT k).bytes.letters = true
  slots : ∀ k, (s.readC k).valid = true → SlotInvariant s.maxlen (s.readC k)
  ilen_le : s.ilen ≤ s.bufferCapacity
  olen_le : s.olen ≤ s.bufferCapacity
  orp_le : s.orp ≤ s.olen
  ibuf_wf : s.ibuf.wf
  obuf_wf : s.obuf.wf
  ibuf_inside : ∀ cell ∈ s.ibuf, cell.1 < s.bufferCapacity
  obuf_inside : ∀ cell ∈ s.obuf, cell.1 < s.bufferCapacity
  err_legal : s.err ∈ legalCodes
  fault_flagged : s.err.getLsbD 7 = true → s.flt = true

/-! ### What the host can see -/

/-- Two states that differ at most in unobservable bytes: those of empty registers and slots, of `IBUF` at or above
`ILEN` and of `OBUF` at or above `OLEN` (R40, R286, U12). -/
structure SameVisible (s u : State) : Prop where
  t_valid : ∀ k, (s.readT k).valid = (u.readT k).valid
  t_bytes : ∀ k, (s.readT k).valid = true → (s.readT k).bytes = (u.readT k).bytes
  c_valid : ∀ k, (s.readC k).valid = (u.readC k).valid
  c_fields : ∀ k, (s.readC k).valid = true → s.readC k = u.readC k
  crcr : s.crcr = u.crcr
  ilen : s.ilen = u.ilen
  ibuf : ∀ a, a < s.ilen → s.ibuf.read a = u.ibuf.read a
  olen : s.olen = u.olen
  obuf : ∀ a, a < s.olen → s.obuf.read a = u.obuf.read a
  orp : s.orp = u.orp
  err : s.err = u.err
  flt : s.flt = u.flt
  eexp : s.eexp = u.eexp
  eact : s.eact = u.eact
  maxlen : s.maxlen = u.maxlen
  pending : s.pending = u.pending
  responses : s.responses = u.responses

/-- The frame of a chunk: `bytes_be32(L) ++ TYPE ++ DATA ++ bytes_be32(CRC)` (R90, R186). -/
def frameBytes (slot : Slot) : List Byte :=
  (bytesBe32 slot.length).toList ++ slot.type.toList ++ slot.data ++ (bytesBe32 slot.crc).toList

/-! ### Commands in list order (R286) -/

/-- The commands executed one after another, each by its rule; a failed command does not end the list. -/
def execAll : List Instr → State → Result
  | [], s => .next s
  | i :: rest, s =>
    match exec i s with
    | .next t => execAll rest t
    | .fault r => .fault r
    | .refused r => .refused r

/-- The host's coming actions are these commands and nothing else. -/
def State.withProgram (s : State) (is : List Instr) : State :=
  { s with pending := is.map fun i => .command (encode i) }

/-! ### UTF-8 as a grammar (R198) -/

/-- The nine rows of the table of R198: the range of each byte of a pattern. -/
def utf8Table : List (List (Nat × Nat)) :=
  [[(0x00, 0x7F)],
   [(0xC2, 0xDF), (0x80, 0xBF)],
   [(0xE0, 0xE0), (0xA0, 0xBF), (0x80, 0xBF)],
   [(0xE1, 0xEC), (0x80, 0xBF), (0x80, 0xBF)],
   [(0xED, 0xED), (0x80, 0x9F), (0x80, 0xBF)],
   [(0xEE, 0xEF), (0x80, 0xBF), (0x80, 0xBF)],
   [(0xF0, 0xF0), (0x90, 0xBF), (0x80, 0xBF), (0x80, 0xBF)],
   [(0xF1, 0xF3), (0x80, 0xBF), (0x80, 0xBF), (0x80, 0xBF)],
   [(0xF4, 0xF4), (0x80, 0x8F), (0x80, 0xBF), (0x80, 0xBF)]]

/-- A concatenation of zero or more byte patterns of the table, each taken whole (R198). -/
inductive Utf8Text : List Byte → Prop where
  | nil : Utf8Text []
  | pattern (row : List (Nat × Nat)) (bytes rest : List Byte) : row ∈ utf8Table →
      List.Forall₂ (fun range b => range.1 ≤ b.toNat ∧ b.toNat ≤ range.2) row bytes →
      Utf8Text rest → Utf8Text (bytes ++ rest)

end Sys2Proof.Machine
end

