-- ==== Sys2Proof/Certificates/Slice0/Obligations.lean ====
section
/-! DEFINITION. The statements for the provers, one definition each, in the order of OBLIGATIONS.json. Each docstring names
the rule it formalises. `answered` and `failedWith` (Sys2Proof/Safety.lean) are the two ends of a command, rules R243 and
R244; the response itself stands at the head of the field `responses`, which is the model's own rendering of the response
port (notes/assumptions/3.md), as `pending` is of the command port (notes/assumptions/2.md). -/

open Sys2Proof Sys2Proof.Machine

/-! ### Decoding -/

/-- R100 to R105: decoding the word of any command gives that command back, every operand at every value. -/
def Obligations.DecodeOfEncode : Prop := ∀ i : Instr, decode (encode i) = .ok i

/-- R101 to R103: a word that decodes is the word of the command it decodes to, so no fixed bit is ignored. -/
def Obligations.EncodeOfDecode : Prop := ∀ (w : Word64) (i : Instr), decode w = .ok i → encode i = w

/-- R105, R106: a word decodes to a command of a mnemonic exactly when it matches that mnemonic's row of the opcode table,
`w AND mask = match`. -/
def Obligations.DecodeMatchesOpcodeTable : Prop :=
  ∀ (w : Word64) (m : String),
    (∃ i, decode w = .ok i ∧ i.mnemonic = m)
      ↔ ∃ row ∈ opcodeTable, row.mnemonic = m ∧ w &&& row.mask = row.pattern

/-- Words written out in the rules of the commands decode to the commands they stand for (R136 to R227). -/
def Obligations.SpecWordsDecode : Prop :=
  decode 0x1000000000000000 = .ok .crcInit ∧ decode 0x1100000000000061 = .ok (.crcUpd 0x61) ∧
  decode 0x2000000052755374 = .ok (.ctFrombytes 0 0x52755374) ∧ decode 0x2110000000000000 = .ok (.ctFromtext 1) ∧
  decode 0x2320000000000003 = .ok (.ctByte 2 3) ∧ decode 0x2A02000000000000 = .ok (.ctEq 0 2) ∧
  decode 0x3011000000000000 = .ok (.chNew 1 1) ∧ decode 0x3110000000000000 = .ok (.chParse 1) ∧
  decode 0x3521000000000000 = .ok (.chType 2 1) ∧ decode 0x4100000000000052 = .ok (.ibPut 0x52) ∧
  decode 0x4200000000000000 = .ok .obRd ∧ decode 0x4800000000000008 = .ok (.rd 8)

/-! ### The step -/

/-- R6: a command word that decodes is executed whole on the state with that word taken from the host's list; with no
action waiting the state is kept (R263, notes/assumptions/2.md); a reset keeps the host's two lists
(notes/assumptions/4.md). -/
def Obligations.StepRunsDecodedCommand : Prop :=
  (∀ (s : State) (w : Word64) (rest : List HostAction) (i : Instr),
    s.pending = .command w :: rest → decode w = .ok i → step s = exec i { s with pending := rest }) ∧
  (∀ s : State, s.pending = [] → step s = .next s) ∧
  (∀ (s : State) (rest : List HostAction), s.pending = .reset :: rest →
    ∃ t, step s = .next t ∧ t.pending = rest ∧ t.responses = s.responses)

/-- R245: a word that matches no row of the opcode table, and an `RD` of a CSR number above 0x08, faults
`IllegalCommand` with the word as the actual value. -/
def Obligations.IllegalWordFaults : Prop :=
  (∀ (s : State) (w : Word64) (rest : List HostAction), s.pending = .command w :: rest →
    (∀ row ∈ opcodeTable, w &&& row.mask ≠ row.pattern) →
    step s = .next (failedWith 0x80 0 w { s with pending := rest })) ∧
  (∀ (s : State) (n : Byte), 8 < n.toNat →
    exec (.rd n) s = .next (failedWith 0x80 0 (encode (.rd n)) s))

/-- R280, R40: the reset event empties every register and slot, sets every other piece of state to its reset value and
keeps the parameter; no command clears a valid bit or `FLT`. -/
def Obligations.ResetEventAndOnlyItClears : Prop :=
  (∀ (s : State) (rest : List HostAction), s.pending = .reset :: rest →
    ∃ t, step s = .next t ∧ (∀ k, (t.readT k).valid = false) ∧ (∀ k, (t.readC k).valid = false) ∧
      t.crcr = 0xFFFFFFFF ∧ t.ilen = 0 ∧ t.olen = 0 ∧ t.orp = 0 ∧ t.err = 0 ∧ t.flt = false ∧
      t.eexp = 0 ∧ t.eact = 0 ∧ t.maxlen = s.maxlen) ∧
  (∀ (s t : State) (w : Word64) (rest : List HostAction), s.pending = .command w :: rest → step s = .next t →
    (∀ k, (s.readT k).valid = true → (t.readT k).valid = true) ∧
    (∀ k, (s.readC k).valid = true → (t.readC k).valid = true) ∧ (s.flt = true → t.flt = true))

/-- R286, R24: a list of commands handed over by the host is executed in list order, and a failed command does not end
it. -/
def Obligations.CommandsRunInListOrder : Prop :=
  ∀ (is : List Instr) (s : State),
    Sys2Proof.core.run is.length (s.withProgram is) = execAll is { s with pending := [] }

/-! ### The CRC unit -/

/-- R136, `CRC.INIT`. -/
def Obligations.CrcInitStartsDigest : Prop :=
  encode .crcInit = 0x1000000000000000 ∧
  ∀ s : State, exec .crcInit s = .next (answered 0 { s with crcr := 0xFFFFFFFF })

/-- R137, `CRC.UPD`. -/
def Obligations.CrcUpdStepsOneByte : Prop :=
  (∀ b : Byte, (encode (.crcUpd b)).toNat = 0x1100000000000000 + b.toNat) ∧
  ∀ (b : Byte) (s : State), exec (.crcUpd b) s = .next (answered 0 { s with crcr := crcStep s.crcr b })

/-- R138, `CRC.UPDB`: the register after the valid bytes of `IBUF` in rising offset order; an empty buffer leaves it. -/
def Obligations.CrcUpdbStepsInputBuffer : Prop :=
  encode .crcUpdb = 0x1200000000000000 ∧
  (∀ s : State, exec .crcUpdb s
    = .next (answered 0 { s with crcr := (memRead s.ibuf 0 s.ilen).foldl crcStep s.crcr })) ∧
  ∀ s : State, s.ilen = 0 → exec .crcUpdb s = .next (answered 0 s)

/-- R139, `CRC.FIN`: the complement is answered and the digest kept; straight after `CRC.INIT` the answer is 0. -/
def Obligations.CrcFinAnswersDigest : Prop :=
  encode .crcFin = 0x1300000000000000 ∧
  (∀ s : State, exec .crcFin s = .next (answered (zext32 (s.crcr ^^^ 0xFFFFFFFF)) s)) ∧
  ∀ s : State, ∃ t, execAll [.crcInit, .crcFin] s = .next t ∧ t.responses.head? = some ⟨0, 0⟩

/-- R135, R138, R139, R110, what the spec infers of them: `CRC.UPDB` leaves the register as one `CRC.UPD` per byte does, and
`CRC.OF` answers `crc32` of its bytes. -/
def Obligations.DigestCommandsComputeCrc32 : Prop :=
  (∀ s : State, ∃ t u, exec .crcUpdb s = .next t ∧
    execAll ((memRead s.ibuf 0 s.ilen).map .crcUpd) s = .next u ∧ u.crcr = t.crcr) ∧
  ∀ (bytes : List Byte) (s : State), ∃ t, execAll (Pseudo.crcOf bytes).expand s = .next t ∧
    t.responses.head? = some ⟨0, zext32 (crc32 bytes)⟩

/-- R133: the table form of the byte step, with the 256 words the spec prints. -/
def Obligations.CrcTableForm : Prop :=
  ∀ (r : Word32) (b : Byte),
    crcStep r b = (Config.crcTable.getD ((r ^^^ b.setWidth 32).toNat % 256) 0) ^^^ (r >>> 8)

/-- R140: the bit-serial form, in which bit `i` of the byte enters the feedback at shift `i`. -/
def Obligations.CrcBitSerialForm : Prop :=
  ∀ (r : Word32) (b : Byte),
    crcStep r b = (List.range 8).foldl (fun (x : Word32) i =>
      if Bool.xor (x.getLsbD 0) (b.getLsbD i) then (x >>> 1) ^^^ 0xEDB88320 else x >>> 1) r

/-- R141: two sequences of one length that differ in exactly one byte have different checksums. -/
def Obligations.SingleByteChangeDetected : Prop :=
  ∀ (front back : List Byte) (b b' : Byte), b ≠ b' → crc32 (front ++ b :: back) ≠ crc32 (front ++ b' :: back)

/-- R142: streaming the type bytes and then the input buffer answers the checksum `CH.NEW` stores. -/
def Obligations.StreamedDigestIsChunkChecksum : Prop :=
  ∀ (cd ts : Index) (s : State), (s.readT ts).valid = true → s.ilen ≤ s.maxlen.toNat →
    ∃ t u, execAll ((.crcInit :: (s.readT ts).bytes.toList.map .crcUpd) ++ [.crcUpdb, .crcFin]) s = .next t ∧
      exec (.chNew cd ts) s = .next u ∧ t.responses.head? = some ⟨0, zext32 (u.readC cd).crc⟩

/-! ### The ChunkType unit -/

/-- R152, `CT.FROMBYTES`. -/
def Obligations.CtFrombytesConstructs : Prop :=
  (∀ (td : Index) (imm : Word32),
    (encode (.ctFrombytes td imm)).toNat = 0x2000000000000000 + td.val * 2 ^ 52 + imm.toNat) ∧
  ∀ (td : Index) (imm : Word32) (s : State) (b0 b1 b2 b3 : Byte),
    b0 = imm.extractLsb' 24 8 → b1 = imm.extractLsb' 16 8 → b2 = imm.extractLsb' 8 8 → b3 = imm.extractLsb' 0 8 →
    ((isLetter b0 ∧ isLetter b1 ∧ isLetter b2 ∧ isLetter b3) →
      exec (.ctFrombytes td imm) s = .next (answered 0 { s with t := s.t.set td ⟨true, ⟨b0, b1, b2, b3⟩⟩ })) ∧
    (¬ (isLetter b0 ∧ isLetter b1 ∧ isLetter b2 ∧ isLetter b3) →
      exec (.ctFrombytes td imm) s = .next (failedWith 0x01 0 (zext32 imm) s))

/-- R154, `CT.FROMTEXT`: the length test, the letter test, the construction; with `ILEN = 4` it is `CT.FROMBYTES` of the
four bytes in every respect. -/
def Obligations.CtFromtextConstructs : Prop :=
  (∀ td : Index, (encode (.ctFromtext td)).toNat = 0x2100000000000000 + td.val * 2 ^ 52) ∧
  ∀ (td : Index) (s : State) (y : Quad),
    y = ⟨s.ibuf.read 0, s.ibuf.read 1, s.ibuf.read 2, s.ibuf.read 3⟩ →
    (s.ilen ≠ 4 → exec (.ctFromtext td) s = .next (failedWith 0x84 0 (encode (.ctFromtext td)) s)) ∧
    (s.ilen = 4 → ¬ y.letters → exec (.ctFromtext td) s = .next (failedWith 0x01 0 (zext32 (be32 y)) s)) ∧
    (s.ilen = 4 → y.letters → exec (.ctFromtext td) s = .next (answered 0 { s with t := s.t.set td ⟨true, y⟩ })) ∧
    (s.ilen = 4 → exec (.ctFromtext td) s = exec (.ctFrombytes td (be32 y)) s)

/-- R156, R157, R158: `CT.BYTES`, `CT.BYTE`, `CT.TEXT` answer from the bytes of a full register and write nothing else; a
packed type of letters lies between 0x41414141 and 0x7A7A7A7A. -/
def Obligations.CtBytesByteTextAnswer : Prop :=
  (∀ ts : Index, (encode (.ctBytes ts)).toNat = 0x2200000000000000 + ts.val * 2 ^ 52) ∧
  (∀ ts k : Index, (encode (.ctByte ts k)).toNat = 0x2300000000000000 + ts.val * 2 ^ 52 + k.val) ∧
  (∀ ts : Index, (encode (.ctText ts)).toNat = 0x2400000000000000 + ts.val * 2 ^ 52) ∧
  (∀ (ts k : Index) (s : State) (y : Quad), s.readT ts = ⟨true, y⟩ →
    exec (.ctBytes ts) s = .next (answered (zext32 (be32 y)) s) ∧
    exec (.ctByte ts k) s = .next (answered (zext8 (y.toList.getD k.val 0)) s) ∧
    exec (.ctText ts) s = .next (answered (zext32 (be32 y)) s)) ∧
  (∀ (ts k : Index) (s : State), (s.readT ts).valid = false →
    exec (.ctBytes ts) s = .next (failedWith 0x81 0 (encode (.ctBytes ts)) s) ∧
    exec (.ctByte ts k) s = .next (failedWith 0x81 0 (encode (.ctByte ts k)) s) ∧
    exec (.ctText ts) s = .next (failedWith 0x81 0 (encode (.ctText ts)) s)) ∧
  ∀ y : Quad, y.letters = true → 0x41414141 ≤ (be32 y).toNat ∧ (be32 y).toNat ≤ 0x7A7A7A7A

/-- R159 to R163: the five property queries answer from bit 5 of one byte; only safe-to-copy is true when it is set. -/
def Obligations.CtPropertyQueriesAnswer : Prop :=
  (∀ ts : Index,
    (encode (.ctIsvalid ts)).toNat = 0x2500000000000000 + ts.val * 2 ^ 52 ∧
    (encode (.ctIscrit ts)).toNat = 0x2600000000000000 + ts.val * 2 ^ 52 ∧
    (encode (.ctIspub ts)).toNat = 0x2700000000000000 + ts.val * 2 ^ 52 ∧
    (encode (.ctIsrsv ts)).toNat = 0x2800000000000000 + ts.val * 2 ^ 52 ∧
    (encode (.ctIssafe ts)).toNat = 0x2900000000000000 + ts.val * 2 ^ 52) ∧
  (∀ (ts : Index) (s : State) (y : Quad), s.readT ts = ⟨true, y⟩ →
    exec (.ctIsvalid ts) s = .next (answered (if y.b2 &&& 0x20 = 0 then 1 else 0) s) ∧
    exec (.ctIscrit ts) s = .next (answered (if y.b0 &&& 0x20 = 0 then 1 else 0) s) ∧
    exec (.ctIspub ts) s = .next (answered (if y.b1 &&& 0x20 = 0 then 1 else 0) s) ∧
    exec (.ctIsrsv ts) s = .next (answered (if y.b2 &&& 0x20 = 0 then 1 else 0) s) ∧
    exec (.ctIssafe ts) s = .next (answered (if y.b3 &&& 0x20 ≠ 0 then 1 else 0) s)) ∧
  ∀ (ts : Index) (s : State), (s.readT ts).valid = false →
    exec (.ctIsvalid ts) s = .next (failedWith 0x81 0 (encode (.ctIsvalid ts)) s) ∧
    exec (.ctIscrit ts) s = .next (failedWith 0x81 0 (encode (.ctIscrit ts)) s) ∧
    exec (.ctIspub ts) s = .next (failedWith 0x81 0 (encode (.ctIspub ts)) s) ∧
    exec (.ctIsrsv ts) s = .next (failedWith 0x81 0 (encode (.ctIsrsv ts)) s) ∧
    exec (.ctIssafe ts) s = .next (failedWith 0x81 0 (encode (.ctIssafe ts)) s)

/-- R164, R153: `CT.EQ` answers 1 exactly when all four bytes agree. -/
def Obligations.CtEqCompares : Prop :=
  (∀ ta tb : Index, (encode (.ctEq ta tb)).toNat = 0x2A00000000000000 + ta.val * 2 ^ 52 + tb.val * 2 ^ 48) ∧
  (∀ (ta tb : Index) (s : State) (y z : Quad), s.readT ta = ⟨true, y⟩ → s.readT tb = ⟨true, z⟩ →
    exec (.ctEq ta tb) s
      = .next (answered (if y.b0 = z.b0 ∧ y.b1 = z.b1 ∧ y.b2 = z.b2 ∧ y.b3 = z.b3 then 1 else 0) s)) ∧
  ∀ (ta tb : Index) (s : State), ((s.readT ta).valid = false ∨ (s.readT tb).valid = false) →
    exec (.ctEq ta tb) s = .next (failedWith 0x81 0 (encode (.ctEq ta tb)) s)

/-! ### The Chunk unit -/

/-- R181, `CH.NEW`: the four fields at once, and the invariants of R25 when the type is of letters. -/
def Obligations.ChNewConstructs : Prop :=
  (∀ cd ts : Index, (encode (.chNew cd ts)).toNat = 0x3000000000000000 + cd.val * 2 ^ 52 + ts.val * 2 ^ 48) ∧
  (∀ (cd ts : Index) (s : State) (y : Quad) (d : List Byte) (slot : Slot), s.readT ts = ⟨true, y⟩ →
    s.ilen ≤ s.maxlen.toNat → d = memRead s.ibuf 0 s.ilen →
    slot = ⟨true, BitVec.ofNat 32 s.ilen, y, d, crc32 (y.toList ++ d)⟩ →
    exec (.chNew cd ts) s = .next (answered 0 { s with c := s.c.set cd slot }) ∧
    (y.letters → SlotInvariant s.maxlen slot)) ∧
  (∀ (cd ts : Index) (s : State), (s.readT ts).valid = true → s.maxlen.toNat < s.ilen →
    exec (.chNew cd ts) s = .next (failedWith 0x82 0 (encode (.chNew cd ts)) s)) ∧
  ∀ (cd ts : Index) (s : State), (s.readT ts).valid = false →
    exec (.chNew cd ts) s = .next (failedWith 0x81 0 (encode (.chNew cd ts)) s)

/-- R184, `CH.PARSE`: every outcome, in the order of the source's steps. The clauses cover every state, so `LengthMismatch`
never arises. -/
def Obligations.ChParseOutcomes : Prop :=
  (∀ cd : Index, (encode (.chParse cd)).toNat = 0x3100000000000000 + cd.val * 2 ^ 52) ∧
  (∀ (cd : Index) (s : State), s.ilen < 8 →
    exec (.chParse cd) s = .next (failedWith 0x04 8 (zextNat s.ilen) s)) ∧
  ∀ (cd : Index) (s : State) (q y : Quad) (l : Word32), 8 ≤ s.ilen →
    q.toList = memRead s.ibuf 0 4 → l = be32 q → y.toList = memRead s.ibuf 4 4 →
    (¬ y.letters → exec (.chParse cd) s = .next (failedWith 0x01 0 (zext32 (be32 y)) s)) ∧
    (y.letters → s.ilen < 12 + l.toNat →
      exec (.chParse cd) s = .next (failedWith 0x04 (zextNat (12 + l.toNat)) (zextNat s.ilen) s)) ∧
    (y.letters → 12 + l.toNat ≤ s.ilen →
      ∀ (d : List Byte) (p : Quad) (k : Word32), d = memRead s.ibuf 8 l.toNat →
        p.toList = memRead s.ibuf (8 + l.toNat) 4 → k = be32 p →
        (crc32 (y.toList ++ d) ≠ k →
          exec (.chParse cd) s = .next (failedWith 0x02 (zext32 (crc32 (y.toList ++ d))) (zext32 k) s)) ∧
        (crc32 (y.toList ++ d) = k →
          exec (.chParse cd) s = .next (answered 0 { s with c := s.c.set cd ⟨true, l, y, d, k⟩ })))

/-- R186, `CH.SER`: the frame from offset 0 on, `OLEN`, `ORP`, the byte count; every byte outside the frame is kept. -/
def Obligations.ChSerWritesFrame : Prop :=
  (∀ cs : Index, (encode (.chSer cs)).toNat = 0x3200000000000000 + cs.val * 2 ^ 52) ∧
  (∀ (cs : Index) (s : State) (n : Nat), (s.readC cs).valid = true → SlotInvariant s.maxlen (s.readC cs) →
    n = 12 + (s.readC cs).length.toNat →
    ∃ m, exec (.chSer cs) s = .next (answered (zextNat n) { s with obuf := m, olen := n, orp := 0 }) ∧
      memRead m 0 n = frameBytes (s.readC cs) ∧ ∀ a, n ≤ a → m.read a = s.obuf.read a) ∧
  ∀ (cs : Index) (s : State), (s.readC cs).valid = false →
    exec (.chSer cs) s = .next (failedWith 0x81 0 (encode (.chSer cs)) s)

/-- R188, R189, R195: `CH.LEN`, `CH.OLEN`, `CH.CRC` answer from a full slot and write nothing else; the overall length
does not wrap. -/
def Obligations.ChLenOlenCrcAnswer : Prop :=
  (∀ cs : Index,
    (encode (.chLen cs)).toNat = 0x3300000000000000 + cs.val * 2 ^ 52 ∧
    (encode (.chOlen cs)).toNat = 0x3400000000000000 + cs.val * 2 ^ 52 ∧
    (encode (.chCrc cs)).toNat = 0x3800000000000000 + cs.val * 2 ^ 52) ∧
  (∀ (cs : Index) (s : State), (s.readC cs).valid = true →
    exec (.chLen cs) s = .next (answered (zext32 (s.readC cs).length) s) ∧
    (∃ v, exec (.chOlen cs) s = .next (answered v s) ∧ v.toNat = (s.readC cs).length.toNat + 12) ∧
    exec (.chCrc cs) s = .next (answered (zext32 (s.readC cs).crc) s)) ∧
  ∀ (cs : Index) (s : State), (s.readC cs).valid = false →
    exec (.chLen cs) s = .next (failedWith 0x81 0 (encode (.chLen cs)) s) ∧
    exec (.chOlen cs) s = .next (failedWith 0x81 0 (encode (.chOlen cs)) s) ∧
    exec (.chCrc cs) s = .next (failedWith 0x81 0 (encode (.chCrc cs)) s)

/-- R190, `CH.TYPE`: a copy into the type register, and the packed bytes as the answer. -/
def Obligations.ChTypeCopies : Prop :=
  (∀ td cs : Index, (encode (.chType td cs)).toNat = 0x3500000000000000 + td.val * 2 ^ 52 + cs.val * 2 ^ 48) ∧
  (∀ (td cs : Index) (s : State), (s.readC cs).valid = true →
    exec (.chType td cs) s = .next (answered (zext32 (be32 (s.readC cs).type))
      { s with t := s.t.set td ⟨true, (s.readC cs).type⟩ })) ∧
  ∀ (td cs : Index) (s : State), (s.readC cs).valid = false →
    exec (.chType td cs) s = .next (failedWith 0x81 0 (encode (.chType td cs)) s)

/-- R192, `CH.DATA`: the payload from offset 0 on; every byte outside it is kept. -/
def Obligations.ChDataCopiesPayload : Prop :=
  (∀ cs : Index, (encode (.chData cs)).toNat = 0x3600000000000000 + cs.val * 2 ^ 52) ∧
  (∀ (cs : Index) (s : State) (n : Nat), (s.readC cs).valid = true → SlotInvariant s.maxlen (s.readC cs) →
    n = (s.readC cs).length.toNat →
    ∃ m, exec (.chData cs) s = .next (answered (zextNat n) { s with obuf := m, olen := n, orp := 0 }) ∧
      memRead m 0 n = (s.readC cs).data ∧ ∀ a, n ≤ a → m.read a = s.obuf.read a) ∧
  ∀ (cs : Index) (s : State), (s.readC cs).valid = false →
    exec (.chData cs) s = .next (failedWith 0x81 0 (encode (.chData cs)) s)

/-- R194, `CH.DATASTR`: as `CH.DATA` on a valid payload; on any other `InvalidUtf8` with the length of its longest valid
prefix, and nothing else written. -/
def Obligations.ChDatastrChecksPayload : Prop :=
  (∀ cs : Index, (encode (.chDatastr cs)).toNat = 0x3700000000000000 + cs.val * 2 ^ 52) ∧
  (∀ (cs : Index) (s : State) (n : Nat), (s.readC cs).valid = true → SlotInvariant s.maxlen (s.readC cs) →
    n = (s.readC cs).length.toNat → Utf8Text (s.readC cs).data →
    ∃ m, exec (.chDatastr cs) s = .next (answered (zextNat n) { s with obuf := m, olen := n, orp := 0 }) ∧
      memRead m 0 n = (s.readC cs).data ∧ ∀ a, n ≤ a → m.read a = s.obuf.read a) ∧
  (∀ (cs : Index) (s : State), (s.readC cs).valid = true → ¬ Utf8Text (s.readC cs).data →
    ∃ p, exec (.chDatastr cs) s = .next (failedWith 0x05 0 (zextNat p) s) ∧
      p ≤ (s.readC cs).length.toNat ∧ Utf8Text ((s.readC cs).data.take p) ∧
      ∀ q, q ≤ (s.readC cs).length.toNat → Utf8Text ((s.readC cs).data.take q) → q ≤ p) ∧
  ∀ (cs : Index) (s : State), (s.readC cs).valid = false →
    exec (.chDatastr cs) s = .next (failedWith 0x81 0 (encode (.chDatastr cs)) s)

/-- R198: the left-to-right scan accepts exactly the concatenations of the table's byte patterns. -/
def Obligations.Utf8ScanDecidesGrammar : Prop := ∀ s : List Byte, utf8Valid s = true ↔ Utf8Text s

/-- R196, `CH.EQ`: 1 exactly when all four fields agree. -/
def Obligations.ChEqCompares : Prop :=
  (∀ ca cb : Index, (encode (.chEq ca cb)).toNat = 0x3900000000000000 + ca.val * 2 ^ 52 + cb.val * 2 ^ 48) ∧
  (∀ (ca cb : Index) (s : State) (x y : Slot), s.readC ca = x → s.readC cb = y → x.valid = true → y.valid = true →
    exec (.chEq ca cb) s = .next (answered
      (if x.length = y.length ∧ x.type = y.type ∧ x.data = y.data ∧ x.crc = y.crc then 1 else 0) s)) ∧
  ∀ (ca cb : Index) (s : State), ((s.readC ca).valid = false ∨ (s.readC cb).valid = false) →
    exec (.chEq ca cb) s = .next (failedWith 0x81 0 (encode (.chEq ca cb)) s)

/-- R180: two full slots that meet R25 are equal to `CH.EQ` exactly when their types and payloads are. -/
def Obligations.EqualTypeAndDataIsEqualChunk : Prop :=
  ∀ (ca cb : Index) (s : State), Invariant s → (s.readC ca).valid = true → (s.readC cb).valid = true →
    ∃ v, exec (.chEq ca cb) s = .next (answered v s) ∧
      (v = 1 ↔ (s.readC ca).type = (s.readC cb).type ∧ (s.readC ca).data = (s.readC cb).data)

/-- R97: serializing what was parsed from an exactly sized frame gives the frame back. -/
def Obligations.SerializeUndoesParse : Prop :=
  ∀ (cd : Index) (s t : State), s.ilen ≤ s.bufferCapacity → exec (.chParse cd) s = .next t → t.err = 0 →
    s.ilen = 12 + (t.readC cd).length.toNat →
    ∃ u, exec (.chSer cd) t = .next u ∧ u.olen = s.ilen ∧
      memRead u.obuf 0 u.olen = memRead s.ibuf 0 s.ilen

/-- R97: parsing the bytes a chunk was serialized to gives the chunk back, and `CH.EQ` says so. -/
def Obligations.ParseUndoesSerialize : Prop :=
  ∀ (ca cb : Index) (s u v : State), (s.readC ca).valid = true → SlotInvariant s.maxlen (s.readC ca) →
    exec (.chSer ca) s = .next u → v.readC ca = s.readC ca →
    memRead v.ibuf 0 v.ilen = memRead u.obuf 0 u.olen →
    ∃ w x, exec (.chParse cb) v = .next w ∧ w.readC cb = s.readC ca ∧
      exec (.chEq ca cb) w = .next x ∧ x.responses.head? = some ⟨0, 1⟩

/-! ### Buffers and system -/

/-- R223, `IB.CLR`: the fill count alone. -/
def Obligations.IbClrEmptiesBuffer : Prop :=
  encode .ibClr = 0x4000000000000000 ∧
  ∀ s : State, exec .ibClr s = .next (answered 0 { s with ilen := 0 })

/-- R224, `IB.PUT`: one byte at offset `ILEN`, every other byte kept, the new fill count as the answer; a full buffer
takes nothing. -/
def Obligations.IbPutAppendsByte : Prop :=
  (∀ b : Byte, (encode (.ibPut b)).toNat = 0x4100000000000000 + b.toNat) ∧
  (∀ (b : Byte) (s : State), s.ilen < s.maxlen.toNat + 12 →
    ∃ m, exec (.ibPut b) s = .next (answered (zextNat (s.ilen + 1)) { s with ibuf := m, ilen := s.ilen + 1 }) ∧
      m.read s.ilen = b ∧ ∀ a, a ≠ s.ilen → m.read a = s.ibuf.read a) ∧
  ∀ (b : Byte) (s : State), s.ilen = s.maxlen.toNat + 12 →
    exec (.ibPut b) s = .next (failedWith 0x82 0 (encode (.ibPut b)) s)

/-- R225, `OB.RD`. -/
def Obligations.ObRdReadsNextByte : Prop :=
  encode .obRd = 0x4200000000000000 ∧
  (∀ s : State, s.orp < s.olen →
    exec .obRd s = .next (answered (zext8 (s.obuf.read s.orp)) { s with orp := s.orp + 1 })) ∧
  ∀ s : State, s.olen ≤ s.orp → exec .obRd s = .next (failedWith 0x83 0 0x4200000000000000 s)

/-- R226, `OB.REW`. -/
def Obligations.ObRewRewinds : Prop :=
  encode .obRew = 0x4300000000000000 ∧
  ∀ s : State, exec .obRew s = .next (answered (zextNat s.olen) { s with orp := 0 })

/-- R227, R34: `RD` of each CSR answers its value and writes no state at all; an undefined number faults. -/
def Obligations.RdReadsRegisters : Prop :=
  (∀ n : Byte, (encode (.rd n)).toNat = 0x4800000000000000 + n.toNat) ∧
  (∀ s : State,
    let reads (n : Byte) (v : Word64) : Prop := exec (.rd n) s = .next { s with responses := ⟨0, v⟩ :: s.responses }
    reads 0 (zextNat (s.err.toNat + 256 * s.flt.toNat)) ∧ reads 1 s.eexp ∧ reads 2 s.eact ∧
    reads 3 (zext32 s.crcr) ∧ reads 4 (zextNat s.ilen) ∧ reads 5 (zextNat s.olen) ∧ reads 6 (zextNat s.orp) ∧
    (∃ v, reads 7 v ∧ (∀ k : Index, v.getLsbD k.val = (s.readT k).valid) ∧
      (∀ k : Index, v.getLsbD (8 + k.val) = (s.readC k).valid) ∧
      ∀ n, (4 ≤ n ∧ n < 8) ∨ 12 ≤ n → v.getLsbD n = false) ∧
    reads 8 (zext32 s.maxlen)) ∧
  ∀ (s : State) (n : Byte), 8 < n.toNat →
    exec (.rd n) s = .next (failedWith 0x80 0 (encode (.rd n)) s)

/-- R220, R110: `IB.LOAD` of bytes that fit leaves exactly them in the input buffer. -/
def Obligations.LoadFillsInputBuffer : Prop :=
  ∀ (bytes : List Byte) (s : State), bytes.length ≤ s.bufferCapacity →
    ∃ t, execAll (Pseudo.ibLoad bytes).expand s = .next t ∧ t.ilen = bytes.length ∧
      memRead t.ibuf 0 t.ilen = bytes

/-- R220, R225: `n` times `OB.RD` answers the next `n` bytes of the output buffer in rising offset order. -/
def Obligations.DrainReadsOutputBuffer : Prop :=
  ∀ (n : Nat) (s : State), s.orp + n ≤ s.olen →
    ∃ t, execAll (Pseudo.obRead n).expand s = .next t ∧ t.orp = s.orp + n ∧
      t.responses = ((memRead s.obuf s.orp n).map fun b => ⟨0, zext8 b⟩).reverse ++ s.responses

/-! ### Whole-machine rules -/

/-- R246: a command faults `EmptyOperand` exactly when one of its sources is empty, before its own tests, whatever its
destination holds. -/
def Obligations.EmptySourceFaults : Prop :=
  (∀ (i : Instr) (s : State), emptySource i s → exec i s = .next (failedWith 0x81 0 (encode i) s)) ∧
  ∀ (i : Instr) (s t : State) (r : Response), exec i s = .next t → t.responses = r :: s.responses → r.code = 0x81 →
    emptySource i s

/-- R108, R240: a command that ends answers exactly one response, its code is one of the table, a failure's value is 0,
and the host's list is untouched. -/
def Obligations.EveryCommandAnswersOnce : Prop :=
  ∀ (i : Instr) (s t : State), exec i s = .next t →
    t.pending = s.pending ∧ ∃ r, t.responses = r :: s.responses ∧ r.code ∈ legalCodes ∧ (r.code ≠ 0 → r.rval = 0)

/-- R244: a failed command changes nothing but `STATUS`, `EEXP`, `EACT`, and a fault records 0 and the command word. -/
def Obligations.FailureWritesOnlyStatus : Prop :=
  ∀ (i : Instr) (s t : State) (r : Response), exec i s = .next t → t.responses = r :: s.responses → r.code ≠ 0 →
    t = failedWith r.code t.eexp t.eact s ∧ (r.code.getLsbD 7 = true → t.eexp = 0 ∧ t.eact = encode i)

/-- R243: a success clears `ERR`, `EEXP`, `EACT` and keeps `FLT`; a successful `RD` writes nothing. -/
def Obligations.SuccessWritesStatus : Prop :=
  ∀ (i : Instr) (s t : State) (r : Response), exec i s = .next t → t.responses = r :: s.responses → r.code = 0 →
    t.flt = s.flt ∧
    ((∀ n, i ≠ .rd n) → t.err = 0 ∧ t.eexp = 0 ∧ t.eact = 0) ∧
    (∀ n, i = .rd n → t = { s with responses := t.responses })

/-- R21, R23, R27: a command changes no type register and no slot but the one it names as destination. -/
def Obligations.OnlyDestinationChanges : Prop :=
  ∀ (i : Instr) (s t : State), exec i s = .next t →
    (∀ k, typeDestination i ≠ some k → t.readT k = s.readT k) ∧
    (∀ k, slotDestination i ≠ some k → t.readC k = s.readC k)

/-- R28, R29, R30, R142: `CRCR` changes only by `CRC.INIT`, `CRC.UPD`, `CRC.UPDB`; `IBUF` only by `IB.PUT`, at offset
`ILEN`; `ILEN` only by `IB.*`; `OBUF` and `OLEN` only by a producing command, below the new `OLEN`; `ORP` only by those and
`OB.*`; `MAXLEN` never. -/
def Obligations.UnitsStayApart : Prop :=
  ∀ (i : Instr) (s t : State), exec i s = .next t →
    (writesCrcr i = false → t.crcr = s.crcr) ∧
    (∀ a, ¬ ((∃ b, i = .ibPut b) ∧ a = s.ilen) → t.ibuf.read a = s.ibuf.read a) ∧
    (i ≠ .ibClr → (∀ b, i ≠ .ibPut b) → t.ilen = s.ilen) ∧
    (∀ a, ¬ (producesOutput i = true ∧ a < t.olen) → t.obuf.read a = s.obuf.read a) ∧
    (producesOutput i = false → t.olen = s.olen) ∧
    (producesOutput i = false → i ≠ .obRd → i ≠ .obRew → t.orp = s.orp) ∧
    t.maxlen = s.maxlen

/-- R22, R25, R29, R30, R32: the state after reset meets the invariant, whatever `MAXLEN` is. -/
def Obligations.InvariantAtReset : Prop := (∀ m : Word32, Invariant (State.resetWith m)) ∧ Invariant State.reset

/-- R22, R25, R29, R30, R32, R68, R285: from every state that meets the invariant a step goes on, and the state after it
meets the invariant. No store ever leaves a buffer. -/
def Obligations.StepGoesOnAndKeepsInvariant : Prop :=
  ∀ s : State, Invariant s → ∃ t, step s = .next t ∧ Invariant t

/-- R40, R286, U12: states that differ only in unobservable bytes answer alike and stay so. -/
def Obligations.UnobservableBytesNeverShow : Prop :=
  ∀ s u : State, Invariant s → Invariant u → SameVisible s u →
    ∃ s' u', step s = .next s' ∧ step u = .next u' ∧ SameVisible s' u'
end

