-- ==== Sys2Proof/Laws/Checksum.lean ====
section
/-! SUPPORT. The checksum function: a left fold over the bytes, each step eight linear shifts that lose nothing. -/

namespace Sys2Proof.Machine

@[simp] theorem crcRun_nil (r : Word32) : crcRun r [] = r := rfl

@[simp] theorem crcRun_cons (r : Word32) (b : Byte) (bs : List Byte) :
    crcRun r (b :: bs) = crcRun (crcStep r b) bs := rfl

/-- Chaining: one run over two segments is two runs, in that order (R135). -/
theorem crcRun_append (r : Word32) (s u : List Byte) : crcRun r (s ++ u) = crcRun (crcRun r s) u :=
  List.foldl_append

/-- `crc32([]) = 0` (R134). -/
theorem crc32_nil : crc32 [] = 0 := by decide

/-- A shift, bit by bit: bit `i` is the next higher bit, with the polynomial under it when bit 0 was set. -/
theorem getLsbD_crcShift (r : Word32) (i : Nat) :
    (crcShift r).getLsbD i = (r.getLsbD (i + 1) ^^ (r.getLsbD 0 && crcPolynomial.getLsbD i)) := by
  unfold crcShift
  split <;> simp_all [Nat.add_comm]

/-- The shift is linear. -/
theorem crcShift_xor (r u : Word32) : crcShift (r ^^^ u) = crcShift r ^^^ crcShift u := by
  apply BitVec.eq_of_getLsbD_eq
  intro i _
  simp only [BitVec.getLsbD_xor, getLsbD_crcShift]
  cases r.getLsbD (i + 1) <;> cases u.getLsbD (i + 1) <;> cases r.getLsbD 0 <;> cases u.getLsbD 0 <;> simp

/-- The shift loses nothing: bit 31 of the polynomial is set, so the top bit says what bit 0 was. -/
theorem crcShift_injective {r u : Word32} (h : crcShift r = crcShift u) : r = u := by
  have hb : ∀ i, (crcShift r).getLsbD i = (crcShift u).getLsbD i := fun i => by rw [h]
  simp only [getLsbD_crcShift] at hb
  have h0 : r.getLsbD 0 = u.getLsbD 0 := by
    have := hb 31
    simpa [crcPolynomial] using this
  apply BitVec.eq_of_getLsbD_eq
  intro i _
  cases i with
  | zero => exact h0
  | succ i =>
    have := hb i
    rw [h0] at this
    exact Bool.xor_left_inj.mp this

theorem crcShifts_xor (n : Nat) (r u : Word32) : crcShifts n (r ^^^ u) = crcShifts n r ^^^ crcShifts n u := by
  induction n generalizing r u with
  | zero => rfl
  | succ n ih => rw [crcShifts, crcShifts, crcShifts, crcShift_xor, ih]

theorem crcShifts_injective {n : Nat} {r u : Word32} (h : crcShifts n r = crcShifts n u) : r = u := by
  induction n generalizing r u with
  | zero => exact h
  | succ n ih => exact crcShift_injective (ih h)

end Sys2Proof.Machine
end

