-- ==== Sys2Proof/Laws/State.lean ====
section
/-! SUPPORT. The small lemmas of the state: one per field per update, each true by rfl, and the read-after-write laws of
the two register files. No later proof unfolds a record update. -/

namespace Sys2Proof.Machine

/-! ### `writeT`: every field but `t` -/

@[simp] theorem writeT_c (s : State) (k : Index) (y : Quad) : (s.writeT k y).c = s.c := rfl
@[simp] theorem writeT_crcr (s : State) (k : Index) (y : Quad) : (s.writeT k y).crcr = s.crcr := rfl
@[simp] theorem writeT_ibuf (s : State) (k : Index) (y : Quad) : (s.writeT k y).ibuf = s.ibuf := rfl
@[simp] theorem writeT_ilen (s : State) (k : Index) (y : Quad) : (s.writeT k y).ilen = s.ilen := rfl
@[simp] theorem writeT_obuf (s : State) (k : Index) (y : Quad) : (s.writeT k y).obuf = s.obuf := rfl
@[simp] theorem writeT_olen (s : State) (k : Index) (y : Quad) : (s.writeT k y).olen = s.olen := rfl
@[simp] theorem writeT_orp (s : State) (k : Index) (y : Quad) : (s.writeT k y).orp = s.orp := rfl
@[simp] theorem writeT_err (s : State) (k : Index) (y : Quad) : (s.writeT k y).err = s.err := rfl
@[simp] theorem writeT_flt (s : State) (k : Index) (y : Quad) : (s.writeT k y).flt = s.flt := rfl
@[simp] theorem writeT_eexp (s : State) (k : Index) (y : Quad) : (s.writeT k y).eexp = s.eexp := rfl
@[simp] theorem writeT_eact (s : State) (k : Index) (y : Quad) : (s.writeT k y).eact = s.eact := rfl
@[simp] theorem writeT_maxlen (s : State) (k : Index) (y : Quad) : (s.writeT k y).maxlen = s.maxlen := rfl
@[simp] theorem writeT_pending (s : State) (k : Index) (y : Quad) : (s.writeT k y).pending = s.pending := rfl
@[simp] theorem writeT_responses (s : State) (k : Index) (y : Quad) : (s.writeT k y).responses = s.responses := rfl

/-! ### `writeC`: every field but `c` -/

@[simp] theorem writeC_t (s : State) (k : Index) (l : Word32) (y : Quad) (d : List Byte) (crc : Word32) :
    (s.writeC k l y d crc).t = s.t := rfl
@[simp] theorem writeC_crcr (s : State) (k : Index) (l : Word32) (y : Quad) (d : List Byte) (crc : Word32) :
    (s.writeC k l y d crc).crcr = s.crcr := rfl
@[simp] theorem writeC_ibuf (s : State) (k : Index) (l : Word32) (y : Quad) (d : List Byte) (crc : Word32) :
    (s.writeC k l y d crc).ibuf = s.ibuf := rfl
@[simp] theorem writeC_ilen (s : State) (k : Index) (l : Word32) (y : Quad) (d : List Byte) (crc : Word32) :
    (s.writeC k l y d crc).ilen = s.ilen := rfl
@[simp] theorem writeC_obuf (s : State) (k : Index) (l : Word32) (y : Quad) (d : List Byte) (crc : Word32) :
    (s.writeC k l y d crc).obuf = s.obuf := rfl
@[simp] theorem writeC_olen (s : State) (k : Index) (l : Word32) (y : Quad) (d : List Byte) (crc : Word32) :
    (s.writeC k l y d crc).olen = s.olen := rfl
@[simp] theorem writeC_orp (s : State) (k : Index) (l : Word32) (y : Quad) (d : List Byte) (crc : Word32) :
    (s.writeC k l y d crc).orp = s.orp := rfl
@[simp] theorem writeC_err (s : State) (k : Index) (l : Word32) (y : Quad) (d : List Byte) (crc : Word32) :
    (s.writeC k l y d crc).err = s.err := rfl
@[simp] theorem writeC_flt (s : State) (k : Index) (l : Word32) (y : Quad) (d : List Byte) (crc : Word32) :
    (s.writeC k l y d crc).flt = s.flt := rfl
@[simp] theorem writeC_eexp (s : State) (k : Index) (l : Word32) (y : Quad) (d : List Byte) (crc : Word32) :
    (s.writeC k l y d crc).eexp = s.eexp := rfl
@[simp] theorem writeC_eact (s : State) (k : Index) (l : Word32) (y : Quad) (d : List Byte) (crc : Word32) :
    (s.writeC k l y d crc).eact = s.eact := rfl
@[simp] theorem writeC_maxlen (s : State) (k : Index) (l : Word32) (y : Quad) (d : List Byte) (crc : Word32) :
    (s.writeC k l y d crc).maxlen = s.maxlen := rfl
@[simp] theorem writeC_pending (s : State) (k : Index) (l : Word32) (y : Quad) (d : List Byte) (crc : Word32) :
    (s.writeC k l y d crc).pending = s.pending := rfl
@[simp] theorem writeC_responses (s : State) (k : Index) (l : Word32) (y : Quad) (d : List Byte) (crc : Word32) :
    (s.writeC k l y d crc).responses = s.responses := rfl

/-! ### `resetWith` (R40) -/

@[simp] theorem resetWith_crcr (m : Word32) : (State.resetWith m).crcr = 0xFFFFFFFF := rfl
@[simp] theorem resetWith_ibuf (m : Word32) : (State.resetWith m).ibuf = [] := rfl
@[simp] theorem resetWith_ilen (m : Word32) : (State.resetWith m).ilen = 0 := rfl
@[simp] theorem resetWith_obuf (m : Word32) : (State.resetWith m).obuf = [] := rfl
@[simp] theorem resetWith_olen (m : Word32) : (State.resetWith m).olen = 0 := rfl
@[simp] theorem resetWith_orp (m : Word32) : (State.resetWith m).orp = 0 := rfl
@[simp] theorem resetWith_err (m : Word32) : (State.resetWith m).err = 0 := rfl
@[simp] theorem resetWith_flt (m : Word32) : (State.resetWith m).flt = false := rfl
@[simp] theorem resetWith_eexp (m : Word32) : (State.resetWith m).eexp = 0 := rfl
@[simp] theorem resetWith_eact (m : Word32) : (State.resetWith m).eact = 0 := rfl
@[simp] theorem resetWith_maxlen (m : Word32) : (State.resetWith m).maxlen = m := rfl
@[simp] theorem resetWith_pending (m : Word32) : (State.resetWith m).pending = [] := rfl
@[simp] theorem resetWith_responses (m : Word32) : (State.resetWith m).responses = [] := rfl

/-! ### `takeReset` (R280) -/

@[simp] theorem takeReset_t (s : State) : (takeReset s).t = Vector.replicate 4 TypeReg.empty := rfl
@[simp] theorem takeReset_c (s : State) : (takeReset s).c = Vector.replicate 4 Slot.empty := rfl
@[simp] theorem takeReset_crcr (s : State) : (takeReset s).crcr = 0xFFFFFFFF := rfl
@[simp] theorem takeReset_ibuf (s : State) : (takeReset s).ibuf = [] := rfl
@[simp] theorem takeReset_ilen (s : State) : (takeReset s).ilen = 0 := rfl
@[simp] theorem takeReset_obuf (s : State) : (takeReset s).obuf = [] := rfl
@[simp] theorem takeReset_olen (s : State) : (takeReset s).olen = 0 := rfl
@[simp] theorem takeReset_orp (s : State) : (takeReset s).orp = 0 := rfl
@[simp] theorem takeReset_err (s : State) : (takeReset s).err = 0 := rfl
@[simp] theorem takeReset_flt (s : State) : (takeReset s).flt = false := rfl
@[simp] theorem takeReset_eexp (s : State) : (takeReset s).eexp = 0 := rfl
@[simp] theorem takeReset_eact (s : State) : (takeReset s).eact = 0 := rfl
@[simp] theorem takeReset_maxlen (s : State) : (takeReset s).maxlen = s.maxlen := rfl
@[simp] theorem takeReset_pending (s : State) : (takeReset s).pending = s.pending := rfl
@[simp] theorem takeReset_responses (s : State) : (takeReset s).responses = s.responses := rfl

/-! ### `answered` (R243) -/

@[simp] theorem answered_t (v : Word64) (s : State) : (answered v s).t = s.t := rfl
@[simp] theorem answered_c (v : Word64) (s : State) : (answered v s).c = s.c := rfl
@[simp] theorem answered_crcr (v : Word64) (s : State) : (answered v s).crcr = s.crcr := rfl
@[simp] theorem answered_ibuf (v : Word64) (s : State) : (answered v s).ibuf = s.ibuf := rfl
@[simp] theorem answered_ilen (v : Word64) (s : State) : (answered v s).ilen = s.ilen := rfl
@[simp] theorem answered_obuf (v : Word64) (s : State) : (answered v s).obuf = s.obuf := rfl
@[simp] theorem answered_olen (v : Word64) (s : State) : (answered v s).olen = s.olen := rfl
@[simp] theorem answered_orp (v : Word64) (s : State) : (answered v s).orp = s.orp := rfl
@[simp] theorem answered_err (v : Word64) (s : State) : (answered v s).err = 0 := rfl
@[simp] theorem answered_flt (v : Word64) (s : State) : (answered v s).flt = s.flt := rfl
@[simp] theorem answered_eexp (v : Word64) (s : State) : (answered v s).eexp = 0 := rfl
@[simp] theorem answered_eact (v : Word64) (s : State) : (answered v s).eact = 0 := rfl
@[simp] theorem answered_maxlen (v : Word64) (s : State) : (answered v s).maxlen = s.maxlen := rfl
@[simp] theorem answered_pending (v : Word64) (s : State) : (answered v s).pending = s.pending := rfl
@[simp] theorem answered_responses (v : Word64) (s : State) : (answered v s).responses = ⟨0, v⟩ :: s.responses := rfl

/-! ### `failedWith` (R244) -/

@[simp] theorem failedWith_t (code : Byte) (exp act : Word64) (s : State) :
    (failedWith code exp act s).t = s.t := rfl
@[simp] theorem failedWith_c (code : Byte) (exp act : Word64) (s : State) :
    (failedWith code exp act s).c = s.c := rfl
@[simp] theorem failedWith_crcr (code : Byte) (exp act : Word64) (s : State) :
    (failedWith code exp act s).crcr = s.crcr := rfl
@[simp] theorem failedWith_ibuf (code : Byte) (exp act : Word64) (s : State) :
    (failedWith code exp act s).ibuf = s.ibuf := rfl
@[simp] theorem failedWith_ilen (code : Byte) (exp act : Word64) (s : State) :
    (failedWith code exp act s).ilen = s.ilen := rfl
@[simp] theorem failedWith_obuf (code : Byte) (exp act : Word64) (s : State) :
    (failedWith code exp act s).obuf = s.obuf := rfl
@[simp] theorem failedWith_olen (code : Byte) (exp act : Word64) (s : State) :
    (failedWith code exp act s).olen = s.olen := rfl
@[simp] theorem failedWith_orp (code : Byte) (exp act : Word64) (s : State) :
    (failedWith code exp act s).orp = s.orp := rfl
@[simp] theorem failedWith_err (code : Byte) (exp act : Word64) (s : State) :
    (failedWith code exp act s).err = code := rfl
@[simp] theorem failedWith_flt (code : Byte) (exp act : Word64) (s : State) :
    (failedWith code exp act s).flt = (s.flt || code.getLsbD 7) := rfl
@[simp] theorem failedWith_eexp (code : Byte) (exp act : Word64) (s : State) :
    (failedWith code exp act s).eexp = exp := rfl
@[simp] theorem failedWith_eact (code : Byte) (exp act : Word64) (s : State) :
    (failedWith code exp act s).eact = act := rfl
@[simp] theorem failedWith_maxlen (code : Byte) (exp act : Word64) (s : State) :
    (failedWith code exp act s).maxlen = s.maxlen := rfl
@[simp] theorem failedWith_pending (code : Byte) (exp act : Word64) (s : State) :
    (failedWith code exp act s).pending = s.pending := rfl
@[simp] theorem failedWith_responses (code : Byte) (exp act : Word64) (s : State) :
    (failedWith code exp act s).responses = ⟨code, 0⟩ :: s.responses := rfl

/-! ### The register files -/

theorem readT_writeT (s : State) (k j : Index) (y : Quad) :
    (s.writeT k y).readT j = if j = k then ⟨true, y⟩ else s.readT j := by
  simp only [State.readT, State.writeT, Fin.getElem_fin, Vector.getElem_set]
  by_cases h : j = k
  · simp [h]
  · have : (k : Nat) ≠ j := fun e => h (Fin.ext e.symm)
    simp [h, this]

@[simp] theorem readT_writeT_self (s : State) (k : Index) (y : Quad) : (s.writeT k y).readT k = ⟨true, y⟩ := by
  simp [readT_writeT]

theorem readT_writeT_of_ne {s : State} {k j : Index} {y : Quad} (h : j ≠ k) :
    (s.writeT k y).readT j = s.readT j := by
  simp [readT_writeT, h]

theorem readC_writeC (s : State) (k j : Index) (l : Word32) (y : Quad) (d : List Byte) (crc : Word32) :
    (s.writeC k l y d crc).readC j = if j = k then ⟨true, l, y, d, crc⟩ else s.readC j := by
  simp only [State.readC, State.writeC, Fin.getElem_fin, Vector.getElem_set]
  by_cases h : j = k
  · simp [h]
  · have : (k : Nat) ≠ j := fun e => h (Fin.ext e.symm)
    simp [h, this]

@[simp] theorem readC_writeC_self (s : State) (k : Index) (l : Word32) (y : Quad) (d : List Byte) (crc : Word32) :
    (s.writeC k l y d crc).readC k = ⟨true, l, y, d, crc⟩ := by
  simp [readC_writeC]

theorem readC_writeC_of_ne {s : State} {k j : Index} {l : Word32} {y : Quad} {d : List Byte} {crc : Word32}
    (h : j ≠ k) : (s.writeC k l y d crc).readC j = s.readC j := by
  simp [readC_writeC, h]

@[simp] theorem readC_writeT (s : State) (k j : Index) (y : Quad) : (s.writeT k y).readC j = s.readC j := rfl

@[simp] theorem readT_writeC (s : State) (k j : Index) (l : Word32) (y : Quad) (d : List Byte) (crc : Word32) :
    (s.writeC k l y d crc).readT j = s.readT j := rfl

/-- A register file read depends on the register file alone. -/
theorem readT_congr {s u : State} (h : s.t = u.t) (k : Index) : s.readT k = u.readT k := by
  simp [State.readT, h]

theorem readC_congr {s u : State} (h : s.c = u.c) (k : Index) : s.readC k = u.readC k := by
  simp [State.readC, h]

@[simp] theorem readT_answered (v : Word64) (s : State) (k : Index) : (answered v s).readT k = s.readT k := rfl
@[simp] theorem readC_answered (v : Word64) (s : State) (k : Index) : (answered v s).readC k = s.readC k := rfl
@[simp] theorem readT_failedWith (code : Byte) (exp act : Word64) (s : State) (k : Index) :
    (failedWith code exp act s).readT k = s.readT k := rfl
@[simp] theorem readC_failedWith (code : Byte) (exp act : Word64) (s : State) (k : Index) :
    (failedWith code exp act s).readC k = s.readC k := rfl

/-- After reset every register and slot is empty (R40). -/
@[simp] theorem readT_resetWith (m : Word32) (k : Index) : (State.resetWith m).readT k = TypeReg.empty := by
  simp [State.readT, State.resetWith]

@[simp] theorem readC_resetWith (m : Word32) (k : Index) : (State.resetWith m).readC k = Slot.empty := by
  simp [State.readC, State.resetWith]

@[simp] theorem readT_takeReset (s : State) (k : Index) : (takeReset s).readT k = TypeReg.empty := by
  simp [State.readT]

@[simp] theorem readC_takeReset (s : State) (k : Index) : (takeReset s).readC k = Slot.empty := by
  simp [State.readC]

end Sys2Proof.Machine
end

