-- ==== Sys2Proof/Laws/Ends.lean ====
section
/-! SUPPORT. For each shared operation of the machine, once, everything it can do: how a command ends, the operand forms,
and the shared bodies of the command families. -/

namespace Sys2Proof.Machine

/-- A success ends in `answered` (R243). -/
theorem respond_eq (v : Word64) (s : State) : respond v s = .next (answered v s) := rfl

/-- Bit 7 of a code is 1 exactly for faults (R32). -/
theorem code_getLsbD_seven (cause : Cause) : cause.code.getLsbD 7 = cause.isFault := by
  cases cause <;> rfl

theorem code_mem_legalCodes (cause : Cause) : cause.code ∈ legalCodes := by
  cases cause <;> decide

theorem code_ne_zero (cause : Cause) : cause.code ≠ 0 := by
  cases cause <;> decide

/-- A failure ends in `failedWith` (R244). -/
theorem raise_eq (cause : Cause) (exp act : Word64) (s : State) :
    raise cause exp act s = .next (failedWith cause.code exp act s) := by
  rw [raise, failedWith, code_getLsbD_seven]

theorem raiseFault_eq (cause : Cause) (w : Word64) (s : State) :
    raiseFault cause w s = .next (failedWith cause.code 0 w s) := raise_eq cause 0 w s

theorem faultOf_eq (i : Instr) (cause : Cause) (s : State) :
    faultOf i cause s = .next (failedWith cause.code 0 (encode i) s) := raise_eq cause 0 (encode i) s

/-- A producer that fits its buffer succeeds with the byte count. -/
theorem deliver_eq {m : Memory} {n : Nat} {s : State} (h : n ≤ s.bufferCapacity) :
    deliver m n s = .next (answered (zextNat n) { s with obuf := m, olen := n, orp := 0 }) := by
  rw [deliver, if_pos h, respond_eq]

/-- A producer that answers has fitted its buffer. -/
theorem deliver_next {m : Memory} {n : Nat} {s t : State} (h : deliver m n s = .next t) :
    n ≤ s.bufferCapacity ∧ t = answered (zextNat n) { s with obuf := m, olen := n, orp := 0 } := by
  unfold deliver at h
  split at h
  · exact ⟨‹_›, (Host.Outcome.next.inj h).symm⟩
  · cases h

theorem withType_full {i : Instr} {ts : Index} {s : State} {go : Quad → Result} (h : (s.readT ts).valid = true) :
    withType i ts s go = go (s.readT ts).bytes := if_pos h

theorem withType_empty {i : Instr} {ts : Index} {s : State} {go : Quad → Result} (h : (s.readT ts).valid = false) :
    withType i ts s go = .next (failedWith 0x81 0 (encode i) s) := by
  rw [withType, if_neg (by simp [h]), faultOf_eq, Cause.code]

/-- A source type register is either empty, and the command fails, or it goes on. -/
theorem withType_cases {i : Instr} {ts : Index} {s : State} {go : Quad → Result} {o : Result}
    (h : withType i ts s go = o) :
    ((s.readT ts).valid = true ∧ go (s.readT ts).bytes = o)
      ∨ ((s.readT ts).valid = false ∧ o = .next (failedWith 0x81 0 (encode i) s)) := by
  cases hv : (s.readT ts).valid
  · rw [withType_empty hv] at h; exact .inr ⟨rfl, h.symm⟩
  · rw [withType_full hv] at h; exact .inl ⟨rfl, h⟩

theorem withSlot_full {i : Instr} {cs : Index} {s : State} {go : Slot → Result} (h : (s.readC cs).valid = true) :
    withSlot i cs s go = go (s.readC cs) := if_pos h

theorem withSlot_empty {i : Instr} {cs : Index} {s : State} {go : Slot → Result} (h : (s.readC cs).valid = false) :
    withSlot i cs s go = .next (failedWith 0x81 0 (encode i) s) := by
  rw [withSlot, if_neg (by simp [h]), faultOf_eq, Cause.code]

/-- A source slot is either empty, and the command fails, or it goes on. -/
theorem withSlot_cases {i : Instr} {cs : Index} {s : State} {go : Slot → Result} {o : Result}
    (h : withSlot i cs s go = o) :
    ((s.readC cs).valid = true ∧ go (s.readC cs) = o)
      ∨ ((s.readC cs).valid = false ∧ o = .next (failedWith 0x81 0 (encode i) s)) := by
  cases hv : (s.readC cs).valid
  · rw [withSlot_empty hv] at h; exact .inr ⟨rfl, h.symm⟩
  · rw [withSlot_full hv] at h; exact .inl ⟨rfl, h⟩

/-- A query of a full type register answers and writes nothing of its own. -/
theorem queryType_full {i : Instr} {ts : Index} {answer : Quad → Word64} {s : State}
    (h : (s.readT ts).valid = true) :
    queryType i ts answer s = .next (answered (answer (s.readT ts).bytes) s) := withType_full h

theorem queryType_empty {i : Instr} {ts : Index} {answer : Quad → Word64} {s : State}
    (h : (s.readT ts).valid = false) :
    queryType i ts answer s = .next (failedWith 0x81 0 (encode i) s) := withType_empty h

/-- A query of a full slot answers and writes nothing of its own. -/
theorem querySlot_full {i : Instr} {cs : Index} {answer : Slot → Word64} {s : State}
    (h : (s.readC cs).valid = true) :
    querySlot i cs answer s = .next (answered (answer (s.readC cs)) s) := withSlot_full h

theorem querySlot_empty {i : Instr} {cs : Index} {answer : Slot → Word64} {s : State}
    (h : (s.readC cs).valid = false) :
    querySlot i cs answer s = .next (failedWith 0x81 0 (encode i) s) := withSlot_empty h

/-- The constructor of types either replaces the register as a whole or fails (R152). -/
theorem constructType_eq (td : Index) (y : Quad) (s : State) :
    constructType td y s
      = .next (if y.letters then answered 0 (s.writeT td y)
          else failedWith 0x01 0 (zext32 (be32 y)) s) := by
  unfold constructType
  split
  · rw [respond_eq]
  · rw [raise_eq, Cause.code]

end Sys2Proof.Machine
end

