-- ==== Sys2Proof/Laws/Memory.lean ====
section
/-! SUPPORT. The laws of a byte space: reading after writing, and that every operation keeps the canonical form. The read
laws hold of every list of cells; the form is needed only for itself. -/

namespace Sys2Proof.Machine

@[simp] theorem Memory.read_nil (a : Nat) : Memory.read [] a = Memory.unlisted := rfl

theorem Memory.read_cons (cell : Host.Cell) (m : Memory) (a : Nat) :
    Memory.read (cell :: m) a = if cell.1 = a then cell.2 else Memory.read m a := rfl

/-- An erased offset reads as unlisted, every other as before. -/
theorem Memory.read_erase (m : Memory) (a x : Nat) :
    (m.erase a).read x = if x = a then Memory.unlisted else m.read x := by
  induction m with
  | nil => simp [Memory.erase]
  | cons cell m ih =>
    simp only [Memory.erase, List.filter_cons, bne_iff_ne] at ih ⊢
    split <;> rename_i h <;> simp only [Memory.read_cons, ih] <;> split_ifs <;> simp_all

/-- Where an offset is listed nowhere, a new entry for it is what it reads as. -/
theorem Memory.read_insert (m : Memory) (a x : Nat) (b : Byte) (h : ∀ cell ∈ m, cell.1 ≠ a) :
    (m.insert a b).read x = if x = a then b else m.read x := by
  induction m with
  | nil => simp [Memory.insert, Memory.read_cons, eq_comm]
  | cons cell m ih =>
    have hc : cell.1 ≠ a := h cell (by simp)
    have ih := ih fun c hm => h c (by simp [hm])
    simp only [Memory.insert]
    split
    · simp only [Memory.read_cons, eq_comm]
    · simp only [Memory.read_cons, ih]
      split <;> split <;> simp_all

theorem Memory.mem_erase {m : Memory} {a : Nat} {cell : Host.Cell} :
    cell ∈ m.erase a ↔ cell ∈ m ∧ cell.1 ≠ a := by
  simp [Memory.erase]

/-- One byte written: that offset reads as it, every other as before. -/
theorem Memory.read_write (m : Memory) (a x : Nat) (b : Byte) :
    (m.write a b).read x = if x = a then b else m.read x := by
  unfold Memory.write
  split
  · rename_i h
    simp only [Memory.read_erase, h]
  · rw [Memory.read_insert _ _ _ _ fun c hc => (Memory.mem_erase.mp hc).2, Memory.read_erase]
    split <;> simp_all

/-- A sequence written from `a` on: the offsets it covers read as it, every other as before. -/
theorem read_memWriteAll (m : Memory) (a x : Nat) (v : List Byte) :
    (memWriteAll m a v).read x = if a ≤ x ∧ x < a + v.length then v.getD (x - a) 0 else m.read x := by
  induction v generalizing m a with
  | nil => simp [memWriteAll]
  | cons b v ih =>
    simp only [memWriteAll, ih, Memory.read_write, List.length_cons]
    by_cases h0 : x = a
    · subst h0; simp
    · by_cases h1 : a + 1 ≤ x ∧ x < a + 1 + v.length
      · have : x - a = (x - (a + 1)) + 1 := by omega
        rw [if_pos h1, if_pos (by omega), this, List.getD_cons_succ]
      · rw [if_neg h1, if_neg h0, if_neg (by omega)]

/-- `MemWrite` read back. -/
theorem read_memWrite (m : Memory) (a n x : Nat) (v : List Byte) :
    (memWrite m a n v).read x
      = if a ≤ x ∧ x < a + (v.take n).length then (v.take n).getD (x - a) 0 else m.read x :=
  read_memWriteAll m a x (v.take n)

/-- Two sequences written one after the other are one sequence written. -/
theorem memWriteAll_append (m : Memory) (a : Nat) (v w : List Byte) :
    memWriteAll m a (v ++ w) = memWriteAll (memWriteAll m a v) (a + v.length) w := by
  induction v generalizing m a with
  | nil => rfl
  | cons b v ih => simp only [List.cons_append, memWriteAll, ih, List.length_cons]; congr 1; omega

/-- `MemWrite` of a whole sequence. -/
theorem memWrite_all (m : Memory) (a n : Nat) (v : List Byte) (h : v.length ≤ n) :
    memWrite m a n v = memWriteAll m a v := by
  rw [memWrite, List.take_of_length_le h]

@[simp] theorem length_memRead (m : Memory) (a n : Nat) : (memRead m a n).length = n := by
  simp [memRead]

theorem getElem_memRead (m : Memory) (a n k : Nat) (h : k < (memRead m a n).length) :
    (memRead m a n)[k] = m.read (a + k) := by
  simp [memRead]

/-- `MemRead` of two adjoining ranges. -/
theorem memRead_append (m : Memory) (a n k : Nat) :
    memRead m a (n + k) = memRead m a n ++ memRead m (a + n) k := by
  apply List.ext_getElem
  · simp
  · intro i h1 h2
    rw [getElem_memRead, List.getElem_append]
    split
    · rw [getElem_memRead]
    · rename_i h
      simp only [length_memRead] at h
      rw [getElem_memRead, length_memRead]
      congr 1; omega

/-- `MemRead` depends only on the bytes it reads. -/
theorem memRead_congr {m m' : Memory} {a n : Nat} (h : ∀ x, a ≤ x → x < a + n → m.read x = m'.read x) :
    memRead m a n = memRead m' a n := by
  apply List.ext_getElem
  · simp
  · intro i h1 h2
    simp only [length_memRead] at h1
    rw [getElem_memRead, getElem_memRead]
    exact h _ (by omega) (by omega)

/-- `MemRead` after writing exactly that range. -/
theorem memRead_memWriteAll (m : Memory) (a : Nat) (v : List Byte) :
    memRead (memWriteAll m a v) a v.length = v := by
  apply List.ext_getElem
  · simp
  · intro i h1 h2
    rw [getElem_memRead, read_memWriteAll, if_pos (by omega)]
    simp [h2]

/-- `MemRead` of a range a write does not touch. -/
theorem memRead_memWriteAll_of_disjoint (m : Memory) (a x n : Nat) (v : List Byte)
    (h : x + n ≤ a ∨ a + v.length ≤ x) : memRead (memWriteAll m a v) x n = memRead m x n := by
  apply memRead_congr
  intro y h1 h2
  rw [read_memWriteAll, if_neg (by omega)]

/-- Four bytes read as a quad are the sequence of four bytes. -/
theorem toList_memReadQuad (m : Memory) (a : Nat) : (memReadQuad m a).toList = memRead m a 4 := by
  simp [memReadQuad, Quad.toList, memRead, List.range_succ]

@[simp] theorem length_toList (q : Quad) : q.toList.length = 4 := rfl

/-- A quad is its four bytes. -/
theorem Quad.toList_injective {p q : Quad} (h : p.toList = q.toList) : p = q := by
  cases p; cases q; simpa [Quad.toList] using h

/-! ### The canonical form -/

theorem Memory.wf_nil : Memory.wf [] := by simp [Memory.wf]

theorem Memory.wf_erase {m : Memory} (h : m.wf) (a : Nat) : (m.erase a).wf :=
  ⟨h.1.filter _, fun c hc => h.2 c (Memory.mem_erase.mp hc).1⟩

theorem Memory.mem_insert {m : Memory} {a : Nat} {b : Byte} {cell : Host.Cell} :
    cell ∈ m.insert a b ↔ cell = (a, b) ∨ cell ∈ m := by
  induction m with
  | nil => simp [Memory.insert]
  | cons c m ih =>
    simp only [Memory.insert]
    split
    · simp
    · simp only [List.mem_cons, ih]; tauto

theorem Memory.wf_insert {m : Memory} (h : m.wf) {a : Nat} {b : Byte} (hb : b ≠ Memory.unlisted)
    (ha : ∀ cell ∈ m, cell.1 ≠ a) : (m.insert a b).wf := by
  refine ⟨?_, fun c hc => ?_⟩
  · have hs := h.1
    clear h
    induction m with
    | nil => simp [Memory.insert]
    | cons c m ih =>
      rw [List.pairwise_cons] at hs
      simp only [Memory.insert]
      split
      · rename_i hlt
        refine List.pairwise_cons.mpr ⟨fun x hx => ?_, List.pairwise_cons.mpr hs⟩
        rcases List.mem_cons.mp hx with rfl | hx
        · exact hlt
        · exact lt_trans hlt (hs.1 x hx)
      · rename_i hlt
        refine List.pairwise_cons.mpr ⟨fun x hx => ?_, ih (fun x hx => ha x (by simp [hx])) hs.2⟩
        rcases Memory.mem_insert.mp hx with rfl | hx
        · have := ha c (by simp)
          simp only; omega
        · exact hs.1 x hx
  · rcases Memory.mem_insert.mp hc with rfl | hc
    · exact hb
    · exact h.2 c hc

/-- A byte written keeps the canonical form. -/
theorem Memory.wf_write {m : Memory} (h : m.wf) (a : Nat) (b : Byte) : (m.write a b).wf := by
  unfold Memory.write
  split
  · exact Memory.wf_erase h a
  · exact Memory.wf_insert (Memory.wf_erase h a) ‹_› fun c hc => (Memory.mem_erase.mp hc).2

/-- A sequence written keeps the canonical form. -/
theorem wf_memWriteAll {m : Memory} (h : m.wf) (a : Nat) (v : List Byte) : (memWriteAll m a v).wf := by
  induction v generalizing m a with
  | nil => exact h
  | cons b v ih => exact ih (Memory.wf_write h a b) (a + 1)

/-- `MemWrite` keeps the canonical form. -/
theorem wf_memWrite {m : Memory} (h : m.wf) (a n : Nat) (v : List Byte) : (memWrite m a n v).wf :=
  wf_memWriteAll h a _

/-- Equal reads are equal spaces: in canonical form no two lists hold the same bytes. -/
theorem Memory.ext_of_read {m m' : Memory} (h : m.wf) (h' : m'.wf) (e : ∀ a, m.read a = m'.read a) : m = m' := by
  have unlisted_of_above : ∀ (m : Memory) (a : Nat), (∀ c ∈ m, a < c.1) → m.read a = Memory.unlisted := by
    intro m a hm
    induction m with
    | nil => rfl
    | cons c m ih =>
      rw [Memory.read_cons, if_neg (by have := hm c (by simp); omega), ih fun x hx => hm x (by simp [hx])]
  induction m generalizing m' with
  | nil =>
    cases m' with
    | nil => rfl
    | cons c m' =>
      have := e c.1
      rw [Memory.read_cons, if_pos rfl] at this
      exact absurd this.symm (h'.2 c (by simp))
  | cons c m ih =>
    cases m' with
    | nil =>
      have := e c.1
      rw [Memory.read_cons, if_pos rfl] at this
      exact absurd this (h.2 c (by simp))
    | cons c' m' =>
      obtain ⟨hs, hv⟩ := h
      obtain ⟨hs', hv'⟩ := h'
      rw [List.pairwise_cons] at hs hs'
      have key : c.1 = c'.1 := by
        rcases lt_trichotomy c.1 c'.1 with hlt | heq | hgt
        · have := e c.1
          rw [Memory.read_cons, if_pos rfl, Memory.read_cons, if_neg (by omega),
            unlisted_of_above m' c.1 fun x hx => lt_trans hlt (hs'.1 x hx)] at this
          exact absurd this (hv c (by simp))
        · exact heq
        · have := e c'.1
          rw [Memory.read_cons, if_neg (by omega), Memory.read_cons, if_pos rfl,
            unlisted_of_above m c'.1 fun x hx => lt_trans hgt (hs.1 x hx)] at this
          exact absurd this.symm (hv' c' (by simp))
      have val : c.2 = c'.2 := by
        have := e c.1
        rwa [Memory.read_cons, if_pos rfl, Memory.read_cons, if_pos key.symm] at this
      have tail : m = m' := by
        refine ih ⟨hs.2, fun x hx => hv x (by simp [hx])⟩ ⟨hs'.2, fun x hx => hv' x (by simp [hx])⟩ fun a => ?_
        by_cases ha : c.1 = a
        · rw [unlisted_of_above m a fun x hx => ha ▸ hs.1 x hx,
            unlisted_of_above m' a fun x hx => ha ▸ key ▸ hs'.1 x hx]
        · have := e a
          rwa [Memory.read_cons, if_neg ha, Memory.read_cons, if_neg (key ▸ ha)] at this
      rw [tail, Prod.ext key val]

/-! ### Offsets listed -/

theorem Memory.lt_of_mem_write {m : Memory} {a n : Nat} {b : Byte} (ha : a < n) (h : ∀ cell ∈ m, cell.1 < n) :
    ∀ cell ∈ m.write a b, cell.1 < n := by
  intro c hc
  unfold Memory.write at hc
  split at hc
  · exact h c (Memory.mem_erase.mp hc).1
  · rcases Memory.mem_insert.mp hc with rfl | hc
    · exact ha
    · exact h c (Memory.mem_erase.mp hc).1

/-- A write inside a capacity lists no offset outside it. -/
theorem lt_of_mem_memWriteAll {m : Memory} {a n : Nat} {v : List Byte} (ha : a + v.length ≤ n)
    (h : ∀ cell ∈ m, cell.1 < n) : ∀ cell ∈ memWriteAll m a v, cell.1 < n := by
  induction v generalizing m a with
  | nil => exact h
  | cons b v ih =>
    simp only [List.length_cons] at ha
    exact ih (by omega) (Memory.lt_of_mem_write (by omega) h)

theorem lt_of_mem_memWrite {m : Memory} {a k n : Nat} {v : List Byte} (ha : a + k ≤ n)
    (h : ∀ cell ∈ m, cell.1 < n) : ∀ cell ∈ memWrite m a k v, cell.1 < n :=
  lt_of_mem_memWriteAll (by have := List.length_take_le k v; omega) h

end Sys2Proof.Machine
end

