-- ==== Sys2Proof/Laws/Words.lean ====
section
/-! SUPPORT. The laws of four-byte fields and of the small value helpers. -/

namespace Sys2Proof.Machine

/-- The big-endian sum of four bytes stays below `2^32`, so nothing is reduced (R10, R11). -/
theorem toNat_be32 (q : Quad) :
    (be32 q).toNat = q.b0.toNat * 2 ^ 24 + q.b1.toNat * 2 ^ 16 + q.b2.toNat * 2 ^ 8 + q.b3.toNat := by
  have h0 := q.b0.isLt
  have h1 := q.b1.isLt
  have h2 := q.b2.isLt
  have h3 := q.b3.isLt
  rw [be32, BitVec.toNat_ofNat, Nat.mod_eq_of_lt (by omega)]

/-- The byte of a number at bit `lo`, as a number. -/
theorem toNat_byteAt (v : Word32) (lo : Nat) : (v.extractLsb' lo 8).toNat = v.toNat / 2 ^ lo % 2 ^ 8 := by
  rw [BitVec.extractLsb'_toNat, Nat.shiftRight_eq_div_pow]

/-- `bytes_be32(be32(s)) = s` (R11). -/
@[simp] theorem bytesBe32_be32 (q : Quad) : bytesBe32 (be32 q) = q := by
  have h0 := q.b0.isLt
  have h1 := q.b1.isLt
  have h2 := q.b2.isLt
  have h3 := q.b3.isLt
  have e : ∀ lo, ((be32 q).extractLsb' lo 8).toNat
      = (q.b0.toNat * 2 ^ 24 + q.b1.toNat * 2 ^ 16 + q.b2.toNat * 2 ^ 8 + q.b3.toNat) / 2 ^ lo % 2 ^ 8 :=
    fun lo => by rw [toNat_byteAt, toNat_be32]
  have e0 : (be32 q).extractLsb' 24 8 = q.b0 := BitVec.eq_of_toNat_eq (by rw [e]; omega)
  have e1 : (be32 q).extractLsb' 16 8 = q.b1 := BitVec.eq_of_toNat_eq (by rw [e]; omega)
  have e2 : (be32 q).extractLsb' 8 8 = q.b2 := BitVec.eq_of_toNat_eq (by rw [e]; omega)
  have e3 : (be32 q).extractLsb' 0 8 = q.b3 := BitVec.eq_of_toNat_eq (by rw [e]; omega)
  rw [bytesBe32, e0, e1, e2, e3]

/-- `be32(bytes_be32(v)) = v` (R11). -/
@[simp] theorem be32_bytesBe32 (v : Word32) : be32 (bytesBe32 v) = v := by
  have h := v.isLt
  apply BitVec.eq_of_toNat_eq
  rw [toNat_be32, bytesBe32, toNat_byteAt, toNat_byteAt, toNat_byteAt, toNat_byteAt]
  omega

/-- Four bytes are determined by their number. -/
theorem be32_injective {p q : Quad} (h : be32 p = be32 q) : p = q := by
  rw [← bytesBe32_be32 p, h, bytesBe32_be32]

@[simp] theorem toNat_zext32 (v : Word32) : (zext32 v).toNat = v.toNat := by
  have := v.isLt
  rw [zext32, BitVec.toNat_setWidth, Nat.mod_eq_of_lt (by omega)]

@[simp] theorem toNat_zext8 (b : Byte) : (zext8 b).toNat = b.toNat := by
  have := b.isLt
  rw [zext8, BitVec.toNat_setWidth, Nat.mod_eq_of_lt (by omega)]

/-- A count that fits the response value is returned whole (R10). -/
theorem toNat_zextNat {n : Nat} (h : n < 2 ^ 64) : (zextNat n).toNat = n := by
  rw [zextNat, BitVec.toNat_ofNat, Nat.mod_eq_of_lt h]

/-- A count of at most `MAXLEN` bytes fits a `u32`. -/
theorem toNat_ofNat_of_le {n : Nat} {m : Word32} (h : n ≤ m.toNat) : (BitVec.ofNat 32 n : Word32).toNat = n := by
  have := m.isLt
  rw [BitVec.toNat_ofNat, Nat.mod_eq_of_lt (by omega)]

/-- Every buffer count of the model fits the response value. -/
theorem bufferCapacity_lt (s : State) : s.bufferCapacity < 2 ^ 33 := by
  have := s.maxlen.isLt
  unfold State.bufferCapacity
  omega

end Sys2Proof.Machine
end

