-- ==== Sys2Proof/Laws/Effects.lean ====
section
/-! SUPPORT. What a command can do, said once: `exec_cases` lists every way `exec` answers a next state. Each whole-machine
claim is a case analysis over it, with no command unfolded again. -/

namespace Sys2Proof.Machine

/-- The writes a successful command makes of its own, before the status registers are cleared. -/
inductive Effect (i : Instr) (s : State) : State → Prop where
  /-- A query, or `CRC.FIN`. -/
  | keeps : Effect i s s
  | setsCrcr (r : Word32) : writesCrcr i = true → Effect i s { s with crcr := r }
  /-- The four bytes passed the letter check or come from a full slot. -/
  | constructsType (td : Index) (y : Quad) : typeDestination i = some td →
      (y.letters = true ∨ ∃ k, (s.readC k).valid = true ∧ y = (s.readC k).type) → Effect i s (s.writeT td y)
  /-- The type passed the letter check or comes from a full register; the payload is what the buffer held. -/
  | constructsSlot (cd : Index) (y : Quad) (d : List Byte) : slotDestination i = some cd →
      (y.letters = true ∨ ∃ k, (s.readT k).valid = true ∧ y = (s.readT k).bytes) →
      (s.ilen ≤ s.bufferCapacity → d.length ≤ s.maxlen.toNat) → d.length < 2 ^ 32 →
      Effect i s (s.writeC cd (BitVec.ofNat 32 d.length) y d (chunkChecksum y d))
  | clears : i = .ibClr → Effect i s { s with ilen := 0 }
  | appends (b : Byte) : i = .ibPut b → s.ilen < s.bufferCapacity →
      Effect i s { s with ibuf := memWrite s.ibuf s.ilen 1 [b], ilen := s.ilen + 1 }
  /-- `CH.SER`. -/
  | delivers_frame (k : Index) : producesOutput i = true → (s.readC k).valid = true →
      12 + (s.readC k).length.toNat ≤ s.bufferCapacity →
      Effect i s
        { s with obuf := storeFrame s.obuf (s.readC k), olen := 12 + (s.readC k).length.toNat, orp := 0 }
  /-- `CH.DATA` and `CH.DATASTR`. -/
  | delivers_payload (k : Index) : producesOutput i = true → (s.readC k).valid = true →
      (s.readC k).length.toNat ≤ s.bufferCapacity →
      Effect i s
        { s with obuf := storePayload s.obuf (s.readC k), olen := (s.readC k).length.toNat, orp := 0 }
  | reads : i = .obRd → s.orp < s.olen → Effect i s { s with orp := s.orp + 1 }
  | rewinds : i = .obRew → Effect i s { s with orp := 0 }

/-- The three ways a command answers a next state. -/
inductive Ending (i : Instr) (s : State) : State → Prop where
  | success (v : Word64) (s' : State) : (∀ n, i ≠ .rd n) → Effect i s s' → Ending i s (answered v s')
  | readsCsr (n : Byte) (v : Word64) : i = .rd n → csrValue s n = some v →
      Ending i s { s with responses := ⟨0, v⟩ :: s.responses }
  | failure (cause : Cause) (exp act : Word64) : (cause.isFault = true → exp = 0 ∧ act = encode i) →
      Ending i s (failedWith cause.code exp act s)

theorem Ending.of_raise {i : Instr} {s t : State} {cause : Cause} {exp act : Word64}
    (h : raise cause exp act s = .next t) (hf : cause.isFault = true → exp = 0 ∧ act = encode i) : Ending i s t := by
  rw [raise_eq] at h
  cases h
  exact .failure cause exp act hf

theorem Ending.of_faultOf {i : Instr} {s t : State} {cause : Cause} (h : faultOf i cause s = .next t) :
    Ending i s t := .of_raise h fun _ => ⟨rfl, rfl⟩

theorem Ending.of_respond {i : Instr} {s s' t : State} {v : Word64} (hi : ∀ n, i ≠ .rd n)
    (h : respond v s' = .next t) (e : Effect i s s') : Ending i s t := by
  cases h
  exact .success v s' hi e

theorem Ending.of_empty {i : Instr} {s t : State}
    (h : (.next t : Result) = .next (failedWith 0x81 0 (encode i) s)) : Ending i s t := by
  cases h
  exact .failure .emptyOperand 0 (encode i) fun _ => ⟨rfl, rfl⟩

theorem Ending.of_queryType {i : Instr} {s t : State} {ts : Index} {answer : Quad → Word64} (hi : ∀ n, i ≠ .rd n)
    (h : queryType i ts answer s = .next t) : Ending i s t := by
  rcases withType_cases h with ⟨-, h⟩ | ⟨-, h⟩
  · exact .of_respond hi h .keeps
  · exact .of_empty h

theorem Ending.of_querySlot {i : Instr} {s t : State} {cs : Index} {answer : Slot → Word64} (hi : ∀ n, i ≠ .rd n)
    (h : querySlot i cs answer s = .next t) : Ending i s t := by
  rcases withSlot_cases h with ⟨-, h⟩ | ⟨-, h⟩
  · exact .of_respond hi h .keeps
  · exact .of_empty h

theorem Ending.of_constructType {i : Instr} {s t : State} {td : Index} {y : Quad} (hi : ∀ n, i ≠ .rd n)
    (hd : typeDestination i = some td) (h : constructType td y s = .next t) : Ending i s t := by
  rw [constructType_eq] at h
  split at h <;> cases h
  · exact .success 0 _ hi (.constructsType td y hd (.inl ‹_›))
  · exact .failure .invalidChunkType 0 _ (by simp [Cause.isFault])

theorem Ending.of_chNew {cd ts : Index} {s t : State} (h : execChNew cd ts s = .next t) :
    Ending (.chNew cd ts) s t := by
  rcases withType_cases h with ⟨hv, h⟩ | ⟨-, h⟩
  · split at h
    · exact .of_faultOf h
    · rename_i hn
      have hm := s.maxlen.isLt
      have e : BitVec.ofNat 32 s.ilen = BitVec.ofNat 32 (inputBytes s).length := by simp [inputBytes]
      rw [e] at h
      refine .of_respond (by simp) h (.constructsSlot cd _ _ rfl (.inr ⟨ts, hv, rfl⟩) (fun _ => ?_) ?_)
      · simp only [inputBytes, length_memRead]; omega
      · simp only [inputBytes, length_memRead]; omega
  · exact .of_empty h

theorem Ending.of_chParse {cd : Index} {s t : State} (h : execChParse cd s = .next t) :
    Ending (.chParse cd) s t := by
  simp only [execChParse] at h
  split at h
  · exact .of_raise h (by simp [Cause.isFault])
  split at h
  · exact .of_raise h (by simp [Cause.isFault])
  rename_i hy
  split at h
  · exact .of_raise h (by simp [Cause.isFault])
  rename_i hn
  split at h
  · exact .of_raise h (by simp [Cause.isFault])
  split at h
  · exact .of_raise h (by simp [Cause.isFault])
  refine .of_respond (by simp) h (.constructsSlot cd _ _ rfl (.inl (by simpa using hy)) (fun hc => ?_) ?_)
  · rw [length_memRead]; unfold State.bufferCapacity at hc; omega
  · rw [length_memRead]; exact (be32 _).isLt

theorem Ending.of_chSer {cs : Index} {s t : State} (h : execChSer cs s = .next t) : Ending (.chSer cs) s t := by
  rcases withSlot_cases h with ⟨hv, h⟩ | ⟨-, h⟩
  · obtain ⟨hn, rfl⟩ := deliver_next h
    exact .success _ _ (by simp) (.delivers_frame cs rfl hv hn)
  · exact .of_empty h

theorem Ending.of_chData {cs : Index} {s t : State} (h : execChData cs s = .next t) : Ending (.chData cs) s t := by
  rcases withSlot_cases h with ⟨hv, h⟩ | ⟨-, h⟩
  · obtain ⟨hn, rfl⟩ := deliver_next h
    exact .success _ _ (by simp) (.delivers_payload cs rfl hv hn)
  · exact .of_empty h

theorem Ending.of_chDatastr {cs : Index} {s t : State} (h : execChDatastr cs s = .next t) :
    Ending (.chDatastr cs) s t := by
  rcases withSlot_cases h with ⟨hv, h⟩ | ⟨-, h⟩
  · simp only at h
    split at h
    · exact .of_raise h (by simp [Cause.isFault])
    · obtain ⟨hn, rfl⟩ := deliver_next h
      exact .success _ _ (by simp) (.delivers_payload cs rfl hv hn)
  · exact .of_empty h

/-- Every way a command answers a next state. -/
theorem exec_cases {i : Instr} {s t : State} (h : exec i s = .next t) : Ending i s t := by
  cases i with
  | crcInit => exact .of_respond (by simp) h (.setsCrcr _ rfl)
  | crcUpd b => exact .of_respond (by simp) h (.setsCrcr _ rfl)
  | crcUpdb => exact .of_respond (by simp) h (.setsCrcr _ rfl)
  | crcFin => exact .of_respond (by simp) h .keeps
  | ctFrombytes td imm => exact .of_constructType (by simp) rfl h
  | ctFromtext td =>
    simp only [exec, execCtFromtext] at h
    split at h
    · exact .of_faultOf h
    · exact .of_constructType (by simp) rfl h
  | ctBytes ts => rw [exec, execCtBytes] at h; exact .of_queryType (by simp) h
  | ctByte ts k => rw [exec, execCtByte] at h; exact .of_queryType (by simp) h
  | ctText ts => rw [exec, execCtText] at h; exact .of_queryType (by simp) h
  | ctIsvalid ts => rw [exec, execCtIsvalid] at h; exact .of_queryType (by simp) h
  | ctIscrit ts => rw [exec, execCtIscrit] at h; exact .of_queryType (by simp) h
  | ctIspub ts => rw [exec, execCtIspub] at h; exact .of_queryType (by simp) h
  | ctIsrsv ts => rw [exec, execCtIsrsv] at h; exact .of_queryType (by simp) h
  | ctIssafe ts => rw [exec, execCtIssafe] at h; exact .of_queryType (by simp) h
  | ctEq ta tb =>
    rw [exec, execCtEq] at h
    rcases withType_cases h with ⟨-, h⟩ | ⟨-, h⟩
    · rcases withType_cases h with ⟨-, h⟩ | ⟨-, h⟩
      · exact .of_respond (by simp) h .keeps
      · exact .of_empty h
    · exact .of_empty h
  | chNew cd ts => exact .of_chNew h
  | chParse cd => exact .of_chParse h
  | chSer cs => exact .of_chSer h
  | chLen cs => rw [exec, execChLen] at h; exact .of_querySlot (by simp) h
  | chOlen cs => rw [exec, execChOlen] at h; exact .of_querySlot (by simp) h
  | chType td cs =>
    rw [exec, execChType] at h
    rcases withSlot_cases h with ⟨hv, h⟩ | ⟨-, h⟩
    · exact .of_respond (by simp) h (.constructsType td _ rfl (.inr ⟨cs, hv, rfl⟩))
    · exact .of_empty h
  | chData cs => exact .of_chData h
  | chDatastr cs => exact .of_chDatastr h
  | chCrc cs => rw [exec, execChCrc] at h; exact .of_querySlot (by simp) h
  | chEq ca cb =>
    rw [exec, execChEq] at h
    rcases withSlot_cases h with ⟨-, h⟩ | ⟨-, h⟩
    · rcases withSlot_cases h with ⟨-, h⟩ | ⟨-, h⟩
      · exact .of_respond (by simp) h .keeps
      · exact .of_empty h
    · exact .of_empty h
  | ibClr => exact .of_respond (by simp) h (.clears rfl)
  | ibPut b =>
    simp only [exec, execIbPut] at h
    split at h
    · exact .of_faultOf h
    · split at h
      · cases h
      · exact .of_respond (by simp) h (.appends b rfl (by omega))
  | obRd =>
    simp only [exec, execObRd] at h
    split at h
    · exact .of_faultOf h
    · exact .of_respond (by simp) h (.reads rfl (by omega))
  | obRew => exact .of_respond (by simp) h (.rewinds rfl)
  | rd csr =>
    simp only [exec, execRd] at h
    split at h
    · cases h
      exact .readsCsr csr _ rfl ‹_›
    · exact .of_faultOf h

/-- No command empties a register or a slot (R27). -/
theorem Effect.readT_valid {i : Instr} {s s' : State} (e : Effect i s s') {k : Index}
    (h : (s.readT k).valid = true) : (s'.readT k).valid = true := by
  cases e with
  | constructsType td y => rw [readT_writeT]; split <;> simp_all
  | _ => exact h

theorem Effect.readC_valid {i : Instr} {s s' : State} (e : Effect i s s') {k : Index}
    (h : (s.readC k).valid = true) : (s'.readC k).valid = true := by
  cases e with
  | constructsSlot cd y d => rw [readC_writeC]; split <;> simp_all
  | _ => exact h

/-- The status registers, the parameter and the command port are no business of a command's own writes. -/
theorem Effect.keeps_status {i : Instr} {s s' : State} (e : Effect i s s') :
    s'.err = s.err ∧ s'.flt = s.flt ∧ s'.eexp = s.eexp ∧ s'.eact = s.eact ∧ s'.maxlen = s.maxlen ∧
      s'.pending = s.pending ∧ s'.responses = s.responses := by
  cases e <;> exact ⟨rfl, rfl, rfl, rfl, rfl, rfl, rfl⟩

/-! ### What is stored where -/

/-- A four-byte field is stored whole. -/
theorem memWrite_quad (m : Memory) (a : Nat) (q : Quad) : memWrite m a 4 q.toList = memWriteAll m a q.toList :=
  memWrite_all m a 4 q.toList (le_of_eq rfl)

/-- A frame of a slot that holds as many bytes as it says is stored as one sequence. -/
theorem storeFrame_eq (m : Memory) {slot : Slot} (h : slot.length.toNat = slot.data.length) :
    storeFrame m slot = memWriteAll m 0 (frameBytes slot) := by
  simp only [storeFrame, frameBytes]
  rw [memWrite_quad, memWrite_quad, memWrite_quad, memWrite_all _ 8 _ _ (le_of_eq h.symm), memWriteAll_append,
    memWriteAll_append, memWriteAll_append]
  simp only [List.length_append, length_toList, h, Nat.zero_add, Nat.reduceAdd]

theorem length_frameBytes (slot : Slot) : (frameBytes slot).length = 12 + slot.data.length := by
  simp [frameBytes]; omega

/-- A payload of a slot that holds as many bytes as it says is stored as one sequence. -/
theorem storePayload_eq (m : Memory) {slot : Slot} (h : slot.length.toNat = slot.data.length) :
    storePayload m slot = memWriteAll m 0 slot.data := memWrite_all _ _ _ _ (by omega)

/-- A stored frame touches no offset at or above its length. -/
theorem read_storeFrame_of_ge (m : Memory) (slot : Slot) {a : Nat} (h : 12 + slot.length.toNat ≤ a) :
    (storeFrame m slot).read a = m.read a := by
  simp only [storeFrame, read_memWrite, List.length_take, length_toList]
  rw [if_neg (by omega), if_neg (by omega), if_neg (by omega), if_neg (by omega)]

/-- A stored payload touches no offset at or above its length. -/
theorem read_storePayload_of_ge (m : Memory) (slot : Slot) {a : Nat} (h : slot.length.toNat ≤ a) :
    (storePayload m slot).read a = m.read a := by
  simp only [storePayload, read_memWrite, List.length_take]
  rw [if_neg (by omega)]

end Sys2Proof.Machine
end

