-- ==== Sys2Proof/Laws/Encoding.lean ====
section
/-! SUPPORT. The fields of a command word, and what each format decoder accepts. -/

namespace Sys2Proof

/-- The number of a command word whose fields fit (R100). -/
theorem toNat_commandWord {op ra rb imm : Nat} (ho : op < 256) (ha : ra < 16) (hb : rb < 16) (hi : imm < 2 ^ 32) :
    (commandWord op ra rb imm).toNat = op * 2 ^ 56 + ra * 2 ^ 52 + rb * 2 ^ 48 + imm := by
  rw [commandWord, BitVec.toNat_ofNat, Nat.mod_eq_of_lt (by omega)]

/-- A command word built from fields that fit has those fields, and `Z = 0` (R100). -/
theorem fieldsOf_commandWord {op ra rb imm : Nat} (ho : op < 256) (ha : ra < 16) (hb : rb < 16) (hi : imm < 2 ^ 32) :
    fieldsOf (commandWord op ra rb imm) = ⟨op, ra, rb, 0, imm⟩ := by
  have hw : (commandWord op ra rb imm).toNat = op * 2 ^ 56 + ra * 2 ^ 52 + rb * 2 ^ 48 + imm := by
    rw [commandWord, BitVec.toNat_ofNat, Nat.mod_eq_of_lt (by omega)]
  simp only [fieldsOf, bitField, hw, Fields.mk.injEq]
  refine ⟨?_, ?_, ?_, ?_, ?_⟩ <;> omega

/-- A word whose reserved field `Z` is zero is the command word of its fields (R100). -/
theorem commandWord_fieldsOf {w : Word64} (hz : (fieldsOf w).z = 0) :
    commandWord (fieldsOf w).op (fieldsOf w).ra (fieldsOf w).rb (fieldsOf w).imm = w := by
  have hw := w.isLt
  simp only [fieldsOf, bitField] at hz ⊢
  apply BitVec.eq_of_toNat_eq
  rw [commandWord, BitVec.toNat_ofNat]
  omega

theorem fieldsOf_op_lt (w : Word64) : (fieldsOf w).op < 256 := Nat.mod_lt _ (by decide)
theorem fieldsOf_ra_lt (w : Word64) : (fieldsOf w).ra < 16 := Nat.mod_lt _ (by decide)
theorem fieldsOf_rb_lt (w : Word64) : (fieldsOf w).rb < 16 := Nat.mod_lt _ (by decide)
theorem fieldsOf_imm_lt (w : Word64) : (fieldsOf w).imm < 2 ^ 32 := Nat.mod_lt _ (by decide)

theorem formatN_ok {f : Fields} {i j : Instr} :
    formatN f i = .ok j ↔ j = i ∧ f.ra = 0 ∧ f.rb = 0 ∧ f.z = 0 ∧ f.imm = 0 := by
  unfold formatN; split <;> simp_all [eq_comm]

theorem formatByte_ok {f : Fields} {k : Byte → Instr} {j : Instr} :
    formatByte f k = .ok j
      ↔ j = k (BitVec.ofNat 8 f.imm) ∧ f.ra = 0 ∧ f.rb = 0 ∧ f.z = 0 ∧ f.imm < 256 := by
  unfold formatByte; split <;> simp_all [eq_comm]

theorem formatA_ok {f : Fields} {k : Index → Instr} {j : Instr} :
    formatA f k = .ok j ↔ j = k (Fin.ofNat 4 f.ra) ∧ f.ra < 4 ∧ f.rb = 0 ∧ f.z = 0 ∧ f.imm = 0 := by
  unfold formatA; split
  · simp; omega
  · split <;> simp_all [eq_comm]

theorem formatAI2_ok {f : Fields} {k : Index → Index → Instr} {j : Instr} :
    formatAI2 f k = .ok j
      ↔ j = k (Fin.ofNat 4 f.ra) (Fin.ofNat 4 f.imm) ∧ f.ra < 4 ∧ f.rb = 0 ∧ f.z = 0 ∧ f.imm < 4 := by
  unfold formatAI2; split
  · simp; omega
  · split <;> simp_all [eq_comm]

theorem formatAI32_ok {f : Fields} {k : Index → Word32 → Instr} {j : Instr} :
    formatAI32 f k = .ok j
      ↔ j = k (Fin.ofNat 4 f.ra) (BitVec.ofNat 32 f.imm) ∧ f.ra < 4 ∧ f.rb = 0 ∧ f.z = 0 := by
  unfold formatAI32; split
  · simp; omega
  · split <;> simp_all [eq_comm]

theorem formatAB_ok {f : Fields} {k : Index → Index → Instr} {j : Instr} :
    formatAB f k = .ok j
      ↔ j = k (Fin.ofNat 4 f.ra) (Fin.ofNat 4 f.rb) ∧ f.ra < 4 ∧ f.rb < 4 ∧ f.z = 0 ∧ f.imm = 0 := by
  unfold formatAB; split
  · simp; omega
  · split <;> simp_all [eq_comm]

/-! ### The masks of the opcode table (R105) -/

/-- A field of a conjunction is the conjunction of the fields. -/
theorem bitField_and (w m : Word64) (lo n : Nat) : bitField (w &&& m) lo n = bitField w lo n &&& bitField m lo n := by
  simp only [bitField, BitVec.toNat_and, Nat.and_div_two_pow, Nat.and_mod_two_pow]

/-- A word is the sum of its nine parts, cut where some mask changes. -/
theorem toNat_eq_parts (w : Word64) :
    w.toNat = bitField w 0 2 + 2 ^ 2 * bitField w 2 6 + 2 ^ 8 * bitField w 8 24 + 2 ^ 32 * bitField w 32 16
      + 2 ^ 48 * bitField w 48 2 + 2 ^ 50 * bitField w 50 2 + 2 ^ 52 * bitField w 52 2 + 2 ^ 54 * bitField w 54 2
      + 2 ^ 56 * bitField w 56 8 := by
  have hw := w.isLt
  simp only [bitField]
  generalize w.toNat = n at hw
  omega

/-- Words that agree on the nine parts are equal. -/
theorem word_ext_parts (v w : Word64) :
    v = w ↔ bitField v 0 2 = bitField w 0 2 ∧ bitField v 2 6 = bitField w 2 6 ∧ bitField v 8 24 = bitField w 8 24 ∧
      bitField v 32 16 = bitField w 32 16 ∧ bitField v 48 2 = bitField w 48 2 ∧ bitField v 50 2 = bitField w 50 2 ∧
      bitField v 52 2 = bitField w 52 2 ∧ bitField v 54 2 = bitField w 54 2 ∧ bitField v 56 8 = bitField w 56 8 := by
  refine ⟨fun h => by subst h; simp, fun ⟨h0, h1, h2, h3, h4, h5, h6, h7, h8⟩ => BitVec.eq_of_toNat_eq ?_⟩
  rw [toNat_eq_parts v, toNat_eq_parts w, h0, h1, h2, h3, h4, h5, h6, h7, h8]

/-- A part under ones is kept. -/
theorem bitField_and_ones (w : Word64) (lo n : Nat) : bitField w lo n &&& (2 ^ n - 1) = bitField w lo n := by
  rw [Nat.and_two_pow_sub_one_eq_mod, bitField, Nat.mod_mod]

/-- A masked word against a pattern, part by part: a part under ones has the pattern's value, a part under zeros has no
say, and there the pattern is zero. -/
theorem and_eq_parts (w m p : Word64) :
    w &&& m = p ↔ bitField w 0 2 &&& bitField m 0 2 = bitField p 0 2 ∧
      bitField w 2 6 &&& bitField m 2 6 = bitField p 2 6 ∧ bitField w 8 24 &&& bitField m 8 24 = bitField p 8 24 ∧
      bitField w 32 16 &&& bitField m 32 16 = bitField p 32 16 ∧
      bitField w 48 2 &&& bitField m 48 2 = bitField p 48 2 ∧ bitField w 50 2 &&& bitField m 50 2 = bitField p 50 2 ∧
      bitField w 52 2 &&& bitField m 52 2 = bitField p 52 2 ∧ bitField w 54 2 &&& bitField m 54 2 = bitField p 54 2 ∧
      bitField w 56 8 &&& bitField m 56 8 = bitField p 56 8 := by
  rw [word_ext_parts]
  simp only [bitField_and]

/-- The pattern of an opcode: nothing but `OP` (R105). -/
def patternOf (op : Nat) : Word64 := commandWord op 0 0 0

theorem bitField_patternOf {op : Nat} (ho : op < 256) (lo n : Nat) :
    bitField (patternOf op) lo n = op * 2 ^ 56 / 2 ^ lo % 2 ^ n := by
  have h : (patternOf op).toNat = op * 2 ^ 56 := by
    simp only [patternOf, commandWord, BitVec.toNat_ofNat]
    omega
  rw [bitField, h]

/-- A word in terms of its fields, part by part. -/
theorem parts_of_fields (w : Word64) :
    (fieldsOf w).op = bitField w 56 8 ∧ (fieldsOf w).ra = bitField w 52 2 + 4 * bitField w 54 2 ∧
      (fieldsOf w).rb = bitField w 48 2 + 4 * bitField w 50 2 ∧ (fieldsOf w).z = bitField w 32 16 ∧
      (fieldsOf w).imm = bitField w 0 2 + 4 * bitField w 2 6 + 256 * bitField w 8 24 := by
  simp only [fieldsOf, bitField, true_and]
  generalize w.toNat = n
  refine ⟨?_, ?_, ?_⟩ <;> omega

theorem bitField_two_lt (w : Word64) (lo : Nat) : bitField w lo 2 < 4 := Nat.mod_lt _ (by decide)
theorem bitField_six_lt (w : Word64) (lo : Nat) : bitField w lo 6 < 64 := Nat.mod_lt _ (by decide)

theorem and_maskN {w : Word64} {op : Nat} (ho : op < 256) :
    w &&& maskN = patternOf op
      ↔ (fieldsOf w).op = op ∧ (fieldsOf w).ra = 0 ∧ (fieldsOf w).rb = 0 ∧ (fieldsOf w).z = 0 ∧ (fieldsOf w).imm = 0 := by
  rw [and_eq_parts]
  simp only [bitField_patternOf ho, show bitField maskN 0 2 = 2 ^ 2 - 1 from rfl,
    show bitField maskN 2 6 = 2 ^ 6 - 1 from rfl, show bitField maskN 8 24 = 2 ^ 24 - 1 from rfl,
    show bitField maskN 32 16 = 2 ^ 16 - 1 from rfl, show bitField maskN 48 2 = 2 ^ 2 - 1 from rfl,
    show bitField maskN 50 2 = 2 ^ 2 - 1 from rfl, show bitField maskN 52 2 = 2 ^ 2 - 1 from rfl,
    show bitField maskN 54 2 = 2 ^ 2 - 1 from rfl, show bitField maskN 56 8 = 2 ^ 8 - 1 from rfl, bitField_and_ones]
  have h := parts_of_fields w
  omega

theorem and_maskByte {w : Word64} {op : Nat} (ho : op < 256) :
    w &&& maskByte = patternOf op
      ↔ (fieldsOf w).op = op ∧ (fieldsOf w).ra = 0 ∧ (fieldsOf w).rb = 0 ∧ (fieldsOf w).z = 0 ∧
        (fieldsOf w).imm < 256 := by
  rw [and_eq_parts]
  simp only [bitField_patternOf ho, show bitField maskByte 0 2 = 0 from rfl, show bitField maskByte 2 6 = 0 from rfl,
    show bitField maskByte 8 24 = 2 ^ 24 - 1 from rfl, show bitField maskByte 32 16 = 2 ^ 16 - 1 from rfl,
    show bitField maskByte 48 2 = 2 ^ 2 - 1 from rfl, show bitField maskByte 50 2 = 2 ^ 2 - 1 from rfl,
    show bitField maskByte 52 2 = 2 ^ 2 - 1 from rfl, show bitField maskByte 54 2 = 2 ^ 2 - 1 from rfl,
    show bitField maskByte 56 8 = 2 ^ 8 - 1 from rfl, bitField_and_ones, Nat.and_zero]
  have h := parts_of_fields w
  have h0 := bitField_two_lt w 0
  have h1 := bitField_six_lt w 2
  omega

theorem and_maskA {w : Word64} {op : Nat} (ho : op < 256) :
    w &&& maskA = patternOf op
      ↔ (fieldsOf w).op = op ∧ (fieldsOf w).ra < 4 ∧ (fieldsOf w).rb = 0 ∧ (fieldsOf w).z = 0 ∧ (fieldsOf w).imm = 0 := by
  rw [and_eq_parts]
  simp only [bitField_patternOf ho, show bitField maskA 0 2 = 2 ^ 2 - 1 from rfl,
    show bitField maskA 2 6 = 2 ^ 6 - 1 from rfl, show bitField maskA 8 24 = 2 ^ 24 - 1 from rfl,
    show bitField maskA 32 16 = 2 ^ 16 - 1 from rfl, show bitField maskA 48 2 = 2 ^ 2 - 1 from rfl,
    show bitField maskA 50 2 = 2 ^ 2 - 1 from rfl, show bitField maskA 52 2 = 0 from rfl,
    show bitField maskA 54 2 = 2 ^ 2 - 1 from rfl, show bitField maskA 56 8 = 2 ^ 8 - 1 from rfl, bitField_and_ones,
    Nat.and_zero]
  have h := parts_of_fields w
  have h0 := bitField_two_lt w 52
  omega

theorem and_maskAI2 {w : Word64} {op : Nat} (ho : op < 256) :
    w &&& maskAI2 = patternOf op
      ↔ (fieldsOf w).op = op ∧ (fieldsOf w).ra < 4 ∧ (fieldsOf w).rb = 0 ∧ (fieldsOf w).z = 0 ∧ (fieldsOf w).imm < 4 := by
  rw [and_eq_parts]
  simp only [bitField_patternOf ho, show bitField maskAI2 0 2 = 0 from rfl,
    show bitField maskAI2 2 6 = 2 ^ 6 - 1 from rfl, show bitField maskAI2 8 24 = 2 ^ 24 - 1 from rfl,
    show bitField maskAI2 32 16 = 2 ^ 16 - 1 from rfl, show bitField maskAI2 48 2 = 2 ^ 2 - 1 from rfl,
    show bitField maskAI2 50 2 = 2 ^ 2 - 1 from rfl, show bitField maskAI2 52 2 = 0 from rfl,
    show bitField maskAI2 54 2 = 2 ^ 2 - 1 from rfl, show bitField maskAI2 56 8 = 2 ^ 8 - 1 from rfl,
    bitField_and_ones, Nat.and_zero]
  have h := parts_of_fields w
  have h0 := bitField_two_lt w 0
  have h1 := bitField_two_lt w 52
  omega

theorem and_maskAI32 {w : Word64} {op : Nat} (ho : op < 256) :
    w &&& maskAI32 = patternOf op
      ↔ (fieldsOf w).op = op ∧ (fieldsOf w).ra < 4 ∧ (fieldsOf w).rb = 0 ∧ (fieldsOf w).z = 0 := by
  rw [and_eq_parts]
  simp only [bitField_patternOf ho, show bitField maskAI32 0 2 = 0 from rfl, show bitField maskAI32 2 6 = 0 from rfl,
    show bitField maskAI32 8 24 = 0 from rfl, show bitField maskAI32 32 16 = 2 ^ 16 - 1 from rfl,
    show bitField maskAI32 48 2 = 2 ^ 2 - 1 from rfl, show bitField maskAI32 50 2 = 2 ^ 2 - 1 from rfl,
    show bitField maskAI32 52 2 = 0 from rfl, show bitField maskAI32 54 2 = 2 ^ 2 - 1 from rfl,
    show bitField maskAI32 56 8 = 2 ^ 8 - 1 from rfl, bitField_and_ones, Nat.and_zero]
  have h := parts_of_fields w
  have h0 := bitField_two_lt w 52
  omega

theorem and_maskAB {w : Word64} {op : Nat} (ho : op < 256) :
    w &&& maskAB = patternOf op
      ↔ (fieldsOf w).op = op ∧ (fieldsOf w).ra < 4 ∧ (fieldsOf w).rb < 4 ∧ (fieldsOf w).z = 0 ∧ (fieldsOf w).imm = 0 := by
  rw [and_eq_parts]
  simp only [bitField_patternOf ho, show bitField maskAB 0 2 = 2 ^ 2 - 1 from rfl,
    show bitField maskAB 2 6 = 2 ^ 6 - 1 from rfl, show bitField maskAB 8 24 = 2 ^ 24 - 1 from rfl,
    show bitField maskAB 32 16 = 2 ^ 16 - 1 from rfl, show bitField maskAB 48 2 = 0 from rfl,
    show bitField maskAB 50 2 = 2 ^ 2 - 1 from rfl, show bitField maskAB 52 2 = 0 from rfl,
    show bitField maskAB 54 2 = 2 ^ 2 - 1 from rfl, show bitField maskAB 56 8 = 2 ^ 8 - 1 from rfl, bitField_and_ones,
    Nat.and_zero]
  have h := parts_of_fields w
  have h0 := bitField_two_lt w 48
  have h1 := bitField_two_lt w 52
  omega

end Sys2Proof
end

