-- ==== Sys2Proof/Laws/PerInstr.lean ====
section
/-! SUPPORT. A statement per constructor of Instr about the command as syntax: its word matches the row of the opcode table
that carries its mnemonic (spec/30_encoding.md R105), whatever its operands are. -/

namespace Sys2Proof.Laws.EncodingMatchesRow

/-- The word of the command matches the opcode-table row of its mnemonic, `w AND mask = match` (R105). -/
def Statement (i : Instr) : Prop := ∃ row ∈ opcodeTable, row.mnemonic = i.mnemonic ∧ encode i &&& row.mask = row.pattern

theorem matches_row {i : Instr} (row : OpcodeRow) (hr : row ∈ opcodeTable) (hm : row.mnemonic = i.mnemonic)
    (h : encode i &&& row.mask = row.pattern) : Statement i := ⟨row, hr, hm, h⟩

/-- A command word with no operand. -/
theorem wordN {op : Nat} (ho : op < 256) : commandWord op 0 0 0 &&& maskN = patternOf op :=
  (and_maskN ho).2 (by simp [fieldsOf_commandWord ho])

/-- A command word with a byte operand. -/
theorem wordByte {op : Nat} (ho : op < 256) (b : Byte) : commandWord op 0 0 b.toNat &&& maskByte = patternOf op := by
  have hb := b.isLt
  refine (and_maskByte ho).2 ?_
  rw [fieldsOf_commandWord ho (by omega) (by omega) (by omega)]
  exact ⟨rfl, rfl, rfl, rfl, hb⟩

/-- A command word with one register operand. -/
theorem wordA {op : Nat} (ho : op < 256) (a : Index) : commandWord op a.val 0 0 &&& maskA = patternOf op := by
  refine (and_maskA ho).2 ?_
  rw [fieldsOf_commandWord ho (by omega) (by omega) (by omega)]
  exact ⟨rfl, a.isLt, rfl, rfl, rfl⟩

/-- A command word with a register operand and a byte index. -/
theorem wordAI2 {op : Nat} (ho : op < 256) (a k : Index) :
    commandWord op a.val 0 k.val &&& maskAI2 = patternOf op := by
  refine (and_maskAI2 ho).2 ?_
  rw [fieldsOf_commandWord ho (by omega) (by omega) (by omega)]
  exact ⟨rfl, a.isLt, rfl, rfl, k.isLt⟩

/-- A command word with a register operand and four bytes. -/
theorem wordAI32 {op : Nat} (ho : op < 256) (a : Index) (v : Word32) :
    commandWord op a.val 0 v.toNat &&& maskAI32 = patternOf op := by
  refine (and_maskAI32 ho).2 ?_
  rw [fieldsOf_commandWord ho (by omega) (by omega) v.isLt]
  exact ⟨rfl, a.isLt, rfl, rfl⟩

/-- A command word with two register operands. -/
theorem wordAB {op : Nat} (ho : op < 256) (a b : Index) :
    commandWord op a.val b.val 0 &&& maskAB = patternOf op := by
  refine (and_maskAB ho).2 ?_
  rw [fieldsOf_commandWord ho (by omega) (by omega) (by omega)]
  exact ⟨rfl, a.isLt, b.isLt, rfl, rfl⟩

theorem crcInit : Statement .crcInit :=
  matches_row ⟨"CRC.INIT", maskN, 0x1000000000000000⟩ (by simp [opcodeTable]) rfl
    (wordN (op := 0x10) (by decide))

theorem crcUpd (b : Byte) : Statement (.crcUpd b) :=
  matches_row ⟨"CRC.UPD", maskByte, 0x1100000000000000⟩ (by simp [opcodeTable]) rfl
    (wordByte (op := 0x11) (by decide) b)

theorem crcUpdb : Statement .crcUpdb :=
  matches_row ⟨"CRC.UPDB", maskN, 0x1200000000000000⟩ (by simp [opcodeTable]) rfl
    (wordN (op := 0x12) (by decide))

theorem crcFin : Statement .crcFin :=
  matches_row ⟨"CRC.FIN", maskN, 0x1300000000000000⟩ (by simp [opcodeTable]) rfl
    (wordN (op := 0x13) (by decide))

theorem ctFrombytes (td : Index) (imm : Word32) : Statement (.ctFrombytes td imm) :=
  matches_row ⟨"CT.FROMBYTES", maskAI32, 0x2000000000000000⟩ (by simp [opcodeTable]) rfl
    (wordAI32 (op := 0x20) (by decide) td imm)

theorem ctFromtext (td : Index) : Statement (.ctFromtext td) :=
  matches_row ⟨"CT.FROMTEXT", maskA, 0x2100000000000000⟩ (by simp [opcodeTable]) rfl
    (wordA (op := 0x21) (by decide) td)

theorem ctBytes (ts : Index) : Statement (.ctBytes ts) :=
  matches_row ⟨"CT.BYTES", maskA, 0x2200000000000000⟩ (by simp [opcodeTable]) rfl
    (wordA (op := 0x22) (by decide) ts)

theorem ctByte (ts : Index) (k : Index) : Statement (.ctByte ts k) :=
  matches_row ⟨"CT.BYTE", maskAI2, 0x2300000000000000⟩ (by simp [opcodeTable]) rfl
    (wordAI2 (op := 0x23) (by decide) ts k)

theorem ctText (ts : Index) : Statement (.ctText ts) :=
  matches_row ⟨"CT.TEXT", maskA, 0x2400000000000000⟩ (by simp [opcodeTable]) rfl
    (wordA (op := 0x24) (by decide) ts)

theorem ctIsvalid (ts : Index) : Statement (.ctIsvalid ts) :=
  matches_row ⟨"CT.ISVALID", maskA, 0x2500000000000000⟩ (by simp [opcodeTable]) rfl
    (wordA (op := 0x25) (by decide) ts)

theorem ctIscrit (ts : Index) : Statement (.ctIscrit ts) :=
  matches_row ⟨"CT.ISCRIT", maskA, 0x2600000000000000⟩ (by simp [opcodeTable]) rfl
    (wordA (op := 0x26) (by decide) ts)

theorem ctIspub (ts : Index) : Statement (.ctIspub ts) :=
  matches_row ⟨"CT.ISPUB", maskA, 0x2700000000000000⟩ (by simp [opcodeTable]) rfl
    (wordA (op := 0x27) (by decide) ts)

theorem ctIsrsv (ts : Index) : Statement (.ctIsrsv ts) :=
  matches_row ⟨"CT.ISRSV", maskA, 0x2800000000000000⟩ (by simp [opcodeTable]) rfl
    (wordA (op := 0x28) (by decide) ts)

theorem ctIssafe (ts : Index) : Statement (.ctIssafe ts) :=
  matches_row ⟨"CT.ISSAFE", maskA, 0x2900000000000000⟩ (by simp [opcodeTable]) rfl
    (wordA (op := 0x29) (by decide) ts)

theorem ctEq (ta : Index) (tb : Index) : Statement (.ctEq ta tb) :=
  matches_row ⟨"CT.EQ", maskAB, 0x2A00000000000000⟩ (by simp [opcodeTable]) rfl
    (wordAB (op := 0x2A) (by decide) ta tb)

theorem chNew (cd : Index) (ts : Index) : Statement (.chNew cd ts) :=
  matches_row ⟨"CH.NEW", maskAB, 0x3000000000000000⟩ (by simp [opcodeTable]) rfl
    (wordAB (op := 0x30) (by decide) cd ts)

theorem chParse (cd : Index) : Statement (.chParse cd) :=
  matches_row ⟨"CH.PARSE", maskA, 0x3100000000000000⟩ (by simp [opcodeTable]) rfl
    (wordA (op := 0x31) (by decide) cd)

theorem chSer (cs : Index) : Statement (.chSer cs) :=
  matches_row ⟨"CH.SER", maskA, 0x3200000000000000⟩ (by simp [opcodeTable]) rfl
    (wordA (op := 0x32) (by decide) cs)

theorem chLen (cs : Index) : Statement (.chLen cs) :=
  matches_row ⟨"CH.LEN", maskA, 0x3300000000000000⟩ (by simp [opcodeTable]) rfl
    (wordA (op := 0x33) (by decide) cs)

theorem chOlen (cs : Index) : Statement (.chOlen cs) :=
  matches_row ⟨"CH.OLEN", maskA, 0x3400000000000000⟩ (by simp [opcodeTable]) rfl
    (wordA (op := 0x34) (by decide) cs)

theorem chType (td : Index) (cs : Index) : Statement (.chType td cs) :=
  matches_row ⟨"CH.TYPE", maskAB, 0x3500000000000000⟩ (by simp [opcodeTable]) rfl
    (wordAB (op := 0x35) (by decide) td cs)

theorem chData (cs : Index) : Statement (.chData cs) :=
  matches_row ⟨"CH.DATA", maskA, 0x3600000000000000⟩ (by simp [opcodeTable]) rfl
    (wordA (op := 0x36) (by decide) cs)

theorem chDatastr (cs : Index) : Statement (.chDatastr cs) :=
  matches_row ⟨"CH.DATASTR", maskA, 0x3700000000000000⟩ (by simp [opcodeTable]) rfl
    (wordA (op := 0x37) (by decide) cs)

theorem chCrc (cs : Index) : Statement (.chCrc cs) :=
  matches_row ⟨"CH.CRC", maskA, 0x3800000000000000⟩ (by simp [opcodeTable]) rfl
    (wordA (op := 0x38) (by decide) cs)

theorem chEq (ca : Index) (cb : Index) : Statement (.chEq ca cb) :=
  matches_row ⟨"CH.EQ", maskAB, 0x3900000000000000⟩ (by simp [opcodeTable]) rfl
    (wordAB (op := 0x39) (by decide) ca cb)

theorem ibClr : Statement .ibClr :=
  matches_row ⟨"IB.CLR", maskN, 0x4000000000000000⟩ (by simp [opcodeTable]) rfl
    (wordN (op := 0x40) (by decide))

theorem ibPut (b : Byte) : Statement (.ibPut b) :=
  matches_row ⟨"IB.PUT", maskByte, 0x4100000000000000⟩ (by simp [opcodeTable]) rfl
    (wordByte (op := 0x41) (by decide) b)

theorem obRd : Statement .obRd :=
  matches_row ⟨"OB.RD", maskN, 0x4200000000000000⟩ (by simp [opcodeTable]) rfl
    (wordN (op := 0x42) (by decide))

theorem obRew : Statement .obRew :=
  matches_row ⟨"OB.REW", maskN, 0x4300000000000000⟩ (by simp [opcodeTable]) rfl
    (wordN (op := 0x43) (by decide))

theorem rd (csr : Byte) : Statement (.rd csr) :=
  matches_row ⟨"RD", maskByte, 0x4800000000000000⟩ (by simp [opcodeTable]) rfl
    (wordByte (op := 0x48) (by decide) csr)

end Sys2Proof.Laws.EncodingMatchesRow
end

