-- ==== Sys2Proof/Laws/Program.lean ====
section
/-! SUPPORT. Lists of commands: no command looks at what the host will do next, and `execAll` and `run` one step at a
time. -/

namespace Sys2Proof.Machine

/-- The host's list replaced. -/
def State.setPending (p : List HostAction) (s : State) : State := { s with pending := p }

/-- The host's list replaced in the state an answer goes on with. -/
def setPendingIn (p : List HostAction) : Result → Result
  | .next t => .next (t.setPending p)
  | .fault r => .fault r
  | .refused r => .refused r

theorem setPendingIn_ite (p : List HostAction) (c : Prop) [Decidable c] (a b : Result) :
    setPendingIn p (if c then a else b) = if c then setPendingIn p a else setPendingIn p b := by
  split <;> rfl

theorem withType_setPending {p : List HostAction} {i : Instr} {ts : Index} {s : State} {go go' : Quad → Result}
    (h : ∀ y, go' y = setPendingIn p (go y)) :
    withType i ts (s.setPending p) go' = setPendingIn p (withType i ts s go) := by
  unfold withType
  rw [setPendingIn_ite, ← h]; rfl

theorem withSlot_setPending {p : List HostAction} {i : Instr} {cs : Index} {s : State} {go go' : Slot → Result}
    (h : ∀ y, go' y = setPendingIn p (go y)) :
    withSlot i cs (s.setPending p) go' = setPendingIn p (withSlot i cs s go) := by
  unfold withSlot
  rw [setPendingIn_ite, ← h]; rfl

theorem deliver_setPending (p : List HostAction) (m : Memory) (n : Nat) (s : State) :
    deliver m n (s.setPending p) = setPendingIn p (deliver m n s) := by
  unfold deliver
  rw [setPendingIn_ite]; rfl

theorem constructType_setPending (p : List HostAction) (td : Index) (y : Quad) (s : State) :
    constructType td y (s.setPending p) = setPendingIn p (constructType td y s) := by
  unfold constructType
  rw [setPendingIn_ite]; rfl

theorem queryType_setPending (p : List HostAction) (i : Instr) (ts : Index) (answer : Quad → Word64) (s : State) :
    queryType i ts answer (s.setPending p) = setPendingIn p (queryType i ts answer s) :=
  withType_setPending fun _ => rfl

theorem querySlot_setPending (p : List HostAction) (i : Instr) (cs : Index) (answer : Slot → Word64) (s : State) :
    querySlot i cs answer (s.setPending p) = setPendingIn p (querySlot i cs answer s) :=
  withSlot_setPending fun _ => rfl

/-- No command looks at what the host will do next (R24, R286). -/
theorem exec_setPending (i : Instr) (s : State) (p : List HostAction) :
    exec i (s.setPending p) = setPendingIn p (exec i s) := by
  cases i with
  | crcInit | crcUpd | crcUpdb | crcFin | ibClr | obRew => rfl
  | ctFrombytes td imm => exact constructType_setPending ..
  | ctFromtext td =>
    simp only [exec, execCtFromtext, setPendingIn_ite, ← constructType_setPending]; rfl
  | ctBytes ts => rw [exec, exec, execCtBytes]; exact queryType_setPending ..
  | ctByte ts k => rw [exec, exec, execCtByte]; exact queryType_setPending ..
  | ctText ts => rw [exec, exec, execCtText]; exact queryType_setPending ..
  | ctIsvalid ts => rw [exec, exec, execCtIsvalid]; exact queryType_setPending ..
  | ctIscrit ts => rw [exec, exec, execCtIscrit]; exact queryType_setPending ..
  | ctIspub ts => rw [exec, exec, execCtIspub]; exact queryType_setPending ..
  | ctIsrsv ts => rw [exec, exec, execCtIsrsv]; exact queryType_setPending ..
  | ctIssafe ts => rw [exec, exec, execCtIssafe]; exact queryType_setPending ..
  | ctEq ta tb =>
    rw [exec, exec, execCtEq]
    exact withType_setPending fun _ => withType_setPending fun _ => rfl
  | chNew cd ts =>
    rw [exec, exec, execChNew]
    exact withType_setPending fun _ => by rw [setPendingIn_ite]; rfl
  | chParse => simp only [exec, execChParse, setPendingIn_ite]; rfl
  | chSer cs => rw [exec, exec, execChSer]; exact withSlot_setPending fun _ => deliver_setPending ..
  | chLen cs => rw [exec, exec, execChLen]; exact querySlot_setPending ..
  | chOlen cs => rw [exec, exec, execChOlen]; exact querySlot_setPending ..
  | chType td cs => rw [exec, exec, execChType]; exact withSlot_setPending fun _ => rfl
  | chData cs => rw [exec, exec, execChData]; exact withSlot_setPending fun _ => deliver_setPending ..
  | chDatastr cs =>
    rw [exec, exec, execChDatastr]
    exact withSlot_setPending fun _ => by simp only [setPendingIn_ite, ← deliver_setPending]; rfl
  | chCrc cs => rw [exec, exec, execChCrc]; exact querySlot_setPending ..
  | chEq ca cb =>
    rw [exec, exec, execChEq]
    exact withSlot_setPending fun _ => withSlot_setPending fun _ => rfl
  | ibPut => simp only [exec, execIbPut, setPendingIn_ite]; rfl
  | obRd => simp only [exec, execObRd, setPendingIn_ite]; rfl
  | rd n =>
    simp only [exec, execRd]
    rw [show csrValue (s.setPending p) n = csrValue s n from rfl]
    split <;> rfl

/-- The first command of a list, then the rest from the state it ends in. -/
theorem execAll_cons {i : Instr} {is : List Instr} {s t : State} (h : exec i s = .next t) :
    execAll (i :: is) s = execAll is t := by
  simp only [execAll, h]

/-- The first part of a list, then the rest from the state it ends in. -/
theorem execAll_append {is js : List Instr} {s t : State} (h : execAll is s = .next t) :
    execAll (is ++ js) s = execAll js t := by
  induction is generalizing s with
  | nil => cases h; rfl
  | cons i is ih =>
    cases hi : exec i s with
    | next u =>
      rw [execAll_cons hi] at h
      rw [List.cons_append, execAll_cons hi, ih h]
    | fault r => simp [execAll, hi] at h
    | refused r => simp [execAll, hi] at h

/-! ### Runs of the machine, one step at a time -/

theorem core_run_zero (s : State) : Sys2Proof.core.run 0 s = .next s := rfl

theorem run_next {M : Host.Core} {k : Nat} {s t : M.State} (h : M.step s = .next t) :
    M.run (k + 1) s = M.run k t := by
  simp only [Host.Core.run, h]

theorem run_fault {M : Host.Core} {k : Nat} {s : M.State} {r : M.Fault} (h : M.step s = .fault r) :
    M.run (k + 1) s = .fault r := by
  simp only [Host.Core.run, h]

theorem run_refused {M : Host.Core} {k : Nat} {s : M.State} {r : M.Refusal} (h : M.step s = .refused r) :
    M.run (k + 1) s = .refused r := by
  simp only [Host.Core.run, h]

/-- One step of a run, in this machine's own types. -/
theorem core_run_next {k : Nat} {s t : State} (h : step s = .next t) :
    Sys2Proof.core.run (k + 1) s = Sys2Proof.core.run k t := run_next (M := Sys2Proof.core) h

theorem core_run_fault {k : Nat} {s : State} {r : Fault} (h : step s = .fault r) :
    Sys2Proof.core.run (k + 1) s = .fault r := run_fault (M := Sys2Proof.core) h

theorem core_run_refused {k : Nat} {s : State} {r : Refusal} (h : step s = .refused r) :
    Sys2Proof.core.run (k + 1) s = .refused r := run_refused (M := Sys2Proof.core) h

end Sys2Proof.Machine
end

