-- ==== Sys2Proof/Laws/Utf8.lean ====
section
/-! SUPPORT. The UTF-8 scan one pattern at a time, and what the longest valid prefix is (spec/42_chunk.md R194, R198). -/

namespace Sys2Proof.Machine

theorem utf8Valid_nil : utf8Valid [] = true := rfl

/-- A one-byte pattern is taken whole. -/
theorem utf8Valid_of_one {b0 : Byte} {rest : List Byte} (h : utf8One b0 = true) :
    utf8Valid (b0 :: rest) = utf8Valid rest := by
  rw [utf8Valid.eq_def]; simp only [h, if_true]

/-- A two-byte pattern is taken whole. -/
theorem utf8Valid_of_two {b0 b1 : Byte} {rest : List Byte} (h0 : utf8One b0 = false)
    (h : utf8Two b0 b1 = true) : utf8Valid (b0 :: b1 :: rest) = utf8Valid rest := by
  rw [utf8Valid.eq_def]; simp only [h, h0, if_true, Bool.false_eq_true, if_false]

/-- A three-byte pattern is taken whole. -/
theorem utf8Valid_of_three {b0 b1 b2 : Byte} {rest : List Byte} (h0 : utf8One b0 = false)
    (h1 : utf8Two b0 b1 = false) (h : utf8Three b0 b1 b2 = true) :
    utf8Valid (b0 :: b1 :: b2 :: rest) = utf8Valid rest := by
  rw [utf8Valid.eq_def]; simp only [h, h0, h1, if_true, Bool.false_eq_true, if_false]

/-- Where no shorter pattern starts, the next four bytes are a pattern or the scan fails. -/
theorem utf8Valid_of_four {b0 b1 b2 b3 : Byte} {rest : List Byte} (h0 : utf8One b0 = false)
    (h1 : utf8Two b0 b1 = false) (h2 : utf8Three b0 b1 b2 = false) :
    utf8Valid (b0 :: b1 :: b2 :: b3 :: rest) = (utf8Four b0 b1 b2 b3 && utf8Valid rest) := by
  rw [utf8Valid.eq_def]
  simp only [h0, h1, h2, Bool.false_eq_true, if_false]
  cases utf8Four b0 b1 b2 b3 <;> simp

/-- A pattern cut after one byte fails. -/
theorem utf8Valid_cut_one {b0 : Byte} (h0 : utf8One b0 = false) : utf8Valid [b0] = false := by
  rw [utf8Valid.eq_def]; simp only [h0, Bool.false_eq_true, if_false]

/-- A pattern cut after two bytes fails. -/
theorem utf8Valid_cut_two {b0 b1 : Byte} (h0 : utf8One b0 = false) (h1 : utf8Two b0 b1 = false) :
    utf8Valid [b0, b1] = false := by
  rw [utf8Valid.eq_def]; simp only [h0, h1, Bool.false_eq_true, if_false]

/-- A pattern cut after three bytes fails. -/
theorem utf8Valid_cut_three {b0 b1 b2 : Byte} (h0 : utf8One b0 = false) (h1 : utf8Two b0 b1 = false)
    (h2 : utf8Three b0 b1 b2 = false) : utf8Valid [b0, b1, b2] = false := by
  rw [utf8Valid.eq_def]; simp only [h0, h1, h2, Bool.false_eq_true, if_false]

/-- The longest valid prefix is a valid prefix within the limit, and no longer one is (R194). -/
theorem longestValidPrefix_spec (d : List Byte) (n : Nat) :
    longestValidPrefix d n ≤ n ∧ utf8Valid (d.take (longestValidPrefix d n)) = true ∧
      ∀ q, q ≤ n → utf8Valid (d.take q) = true → q ≤ longestValidPrefix d n := by
  induction n with
  | zero => simp [longestValidPrefix, utf8Valid_nil]
  | succ n ih =>
    rw [longestValidPrefix]
    split
    · exact ⟨le_rfl, ‹_›, fun q h _ => h⟩
    · refine ⟨by omega, ih.2.1, fun q hq hv => ih.2.2 q ?_ hv⟩
      rcases Nat.lt_or_ge q (n + 1) with h | h
      · omega
      · obtain rfl : q = n + 1 := by omega
        contradiction

end Sys2Proof.Machine
end

