-- ==== Sys2Proof/Tests/Slice0.lean ====
section
/-! SUPPORT. The model's own tests. Every expected value comes from spec/ (95_test_vectors.md by its number, or the rule a
comment names), none from a run of the model. The last part holds the witnesses: for each obligation with hypotheses, a
concrete state and operands that meet them together, clause by clause, at the boundary values. -/

namespace Sys2Proof.Tests

open Sys2Proof.Machine

/-! ### Small states -/

/-- After reset with `MAXLEN = 64`, the start state of 95_test_vectors. -/
def start : State := State.resetWith 64

/-- `IBUF[0, ILEN)` holds these bytes. -/
def loaded (bytes : List Byte) (s : State) : State :=
  { s with ibuf := memWriteAll [] 0 bytes, ilen := bytes.length }

/-- `OBUF[0, OLEN)` holds these bytes, read up to `orp`. -/
def drained (bytes : List Byte) (orp : Nat) (s : State) : State :=
  { s with obuf := memWriteAll [] 0 bytes, olen := bytes.length, orp := orp }

/-- Type register `k` holds the four bytes of `y`. -/
def typed (k : Index) (y : Word32) (s : State) : State := s.writeT k (bytesBe32 y)

/-- Chunk slot `k` holds this type, payload and checksum. -/
def chunked (k : Index) (y : Word32) (d : List Byte) (crc : Word32) (s : State) : State :=
  s.writeC k (BitVec.ofNat 32 d.length) (bytesBe32 y) d crc

/-- The response to a command word, as code and value, from a state with nothing answered before. -/
def answer (w : Word64) (s : State) : Option (Byte × Word64) :=
  match step (s.withFetchWord 64 w.toNat) with
  | .next t => t.responses.head?.map fun r => (r.code, r.rval)
  | .fault _ | .refused _ => none

/-- What a field of the state is after a command word. -/
def after {α : Type} (field : State → α) (w : Word64) (s : State) : Option α :=
  match step (s.withFetchWord 64 w.toNat) with
  | .next t => some (field t)
  | .fault _ | .refused _ => none

/-- The step goes on. -/
def goesOn (w : Nat) : Bool :=
  match step (State.reset.withFetchWord 64 w) with
  | .next _ => true
  | .fault _ | .refused _ => false

/-! ### Well-formed commands (R31, R227) -/

theorem test_wellFormed_rd_8 : Instr.wellFormed (.rd 8) = true := by decide
theorem test_wellFormed_rd_9_refused : Instr.wellFormed (.rd 9) = false := by decide
theorem test_wellFormed_rd_ff_refused : Instr.wellFormed (.rd 0xFF) = false := by decide

/-! ### Decoding: one word per constructor, written field by field as `OP ++ RA ++ RB ++ Z ++ IMM` (R100, R101, R105) -/

theorem test_decode_crcInit : decode (0b00010000#8 ++ 0b0000#4 ++ 0b0000#4 ++ 0#16 ++ 0#32) = .ok (.crcInit) := by decide
theorem test_decode_crcUpd : decode (0b00010001#8 ++ 0b0000#4 ++ 0b0000#4 ++ 0#16 ++ 0x00000061#32) = .ok (.crcUpd 0x61) := by decide
theorem test_decode_crcUpdb : decode (0b00010010#8 ++ 0b0000#4 ++ 0b0000#4 ++ 0#16 ++ 0#32) = .ok (.crcUpdb) := by decide
theorem test_decode_crcFin : decode (0b00010011#8 ++ 0b0000#4 ++ 0b0000#4 ++ 0#16 ++ 0#32) = .ok (.crcFin) := by decide
theorem test_decode_ctFrombytes : decode (0b00100000#8 ++ 0b0010#4 ++ 0b0000#4 ++ 0#16 ++ 0x52755374#32) = .ok (.ctFrombytes 2 0x52755374) := by decide
theorem test_decode_ctFromtext : decode (0b00100001#8 ++ 0b0001#4 ++ 0b0000#4 ++ 0#16 ++ 0#32) = .ok (.ctFromtext 1) := by decide
theorem test_decode_ctBytes : decode (0b00100010#8 ++ 0b0011#4 ++ 0b0000#4 ++ 0#16 ++ 0#32) = .ok (.ctBytes 3) := by decide
theorem test_decode_ctByte : decode (0b00100011#8 ++ 0b0010#4 ++ 0b0000#4 ++ 0#16 ++ 0x00000003#32) = .ok (.ctByte 2 3) := by decide
theorem test_decode_ctText : decode (0b00100100#8 ++ 0b0001#4 ++ 0b0000#4 ++ 0#16 ++ 0#32) = .ok (.ctText 1) := by decide
theorem test_decode_ctIsvalid : decode (0b00100101#8 ++ 0b0010#4 ++ 0b0000#4 ++ 0#16 ++ 0#32) = .ok (.ctIsvalid 2) := by decide
theorem test_decode_ctIscrit : decode (0b00100110#8 ++ 0b0011#4 ++ 0b0000#4 ++ 0#16 ++ 0#32) = .ok (.ctIscrit 3) := by decide
theorem test_decode_ctIspub : decode (0b00100111#8 ++ 0b0001#4 ++ 0b0000#4 ++ 0#16 ++ 0#32) = .ok (.ctIspub 1) := by decide
theorem test_decode_ctIsrsv : decode (0b00101000#8 ++ 0b0010#4 ++ 0b0000#4 ++ 0#16 ++ 0#32) = .ok (.ctIsrsv 2) := by decide
theorem test_decode_ctIssafe : decode (0b00101001#8 ++ 0b0011#4 ++ 0b0000#4 ++ 0#16 ++ 0#32) = .ok (.ctIssafe 3) := by decide
theorem test_decode_ctEq : decode (0b00101010#8 ++ 0b0001#4 ++ 0b0010#4 ++ 0#16 ++ 0#32) = .ok (.ctEq 1 2) := by decide
theorem test_decode_chNew : decode (0b00110000#8 ++ 0b0011#4 ++ 0b0001#4 ++ 0#16 ++ 0#32) = .ok (.chNew 3 1) := by decide
theorem test_decode_chParse : decode (0b00110001#8 ++ 0b0001#4 ++ 0b0000#4 ++ 0#16 ++ 0#32) = .ok (.chParse 1) := by decide
theorem test_decode_chSer : decode (0b00110010#8 ++ 0b0010#4 ++ 0b0000#4 ++ 0#16 ++ 0#32) = .ok (.chSer 2) := by decide
theorem test_decode_chLen : decode (0b00110011#8 ++ 0b0011#4 ++ 0b0000#4 ++ 0#16 ++ 0#32) = .ok (.chLen 3) := by decide
theorem test_decode_chOlen : decode (0b00110100#8 ++ 0b0001#4 ++ 0b0000#4 ++ 0#16 ++ 0#32) = .ok (.chOlen 1) := by decide
theorem test_decode_chType : decode (0b00110101#8 ++ 0b0010#4 ++ 0b0001#4 ++ 0#16 ++ 0#32) = .ok (.chType 2 1) := by decide
theorem test_decode_chData : decode (0b00110110#8 ++ 0b0011#4 ++ 0b0000#4 ++ 0#16 ++ 0#32) = .ok (.chData 3) := by decide
theorem test_decode_chDatastr : decode (0b00110111#8 ++ 0b0001#4 ++ 0b0000#4 ++ 0#16 ++ 0#32) = .ok (.chDatastr 1) := by decide
theorem test_decode_chCrc : decode (0b00111000#8 ++ 0b0010#4 ++ 0b0000#4 ++ 0#16 ++ 0#32) = .ok (.chCrc 2) := by decide
theorem test_decode_chEq : decode (0b00111001#8 ++ 0b0000#4 ++ 0b0011#4 ++ 0#16 ++ 0#32) = .ok (.chEq 0 3) := by decide
theorem test_decode_ibClr : decode (0b01000000#8 ++ 0b0000#4 ++ 0b0000#4 ++ 0#16 ++ 0#32) = .ok (.ibClr) := by decide
theorem test_decode_ibPut : decode (0b01000001#8 ++ 0b0000#4 ++ 0b0000#4 ++ 0#16 ++ 0x000000EE#32) = .ok (.ibPut 0xEE) := by decide
theorem test_decode_obRd : decode (0b01000010#8 ++ 0b0000#4 ++ 0b0000#4 ++ 0#16 ++ 0#32) = .ok (.obRd) := by decide
theorem test_decode_obRew : decode (0b01000011#8 ++ 0b0000#4 ++ 0b0000#4 ++ 0#16 ++ 0#32) = .ok (.obRew) := by decide
theorem test_decode_rd : decode (0b01001000#8 ++ 0b0000#4 ++ 0b0000#4 ++ 0#16 ++ 0x00000007#32) = .ok (.rd 7) := by decide

/-- V60: words that are no command. -/
theorem test_illegal_opcodes : ([0x0000000000000000, 0xFFFFFFFFFFFFFFFF, 0x1400000000000000, 0x2B00000000000000,
    0x3A00000000000000, 0x4400000000000000, 0x4700000000000000, 0x4900000000000000, 0x0F00000000000000] : List Word64).all
    (fun w => answer w start == some (0x80, 0)) = true := by decide

/-- V60: commands with a bit set that their format requires to be zero. -/
theorem test_illegal_reserved_bits : ([0x1000000000000001, 0x1010000000000000, 0x1100000000000100,
    0x1100000100000041, 0x2201000000000000, 0x2200000000000001, 0x2300000000000004, 0x2000800052755374,
    0x2001000052755374, 0x3000000000000001, 0x4800000000000100, 0x4810000000000000] : List Word64).all
    (fun w => answer w start == some (0x80, 0)) = true := by decide

/-- V60: register fields above 3. -/
theorem test_illegal_register_fields : ([0x2240000000000000, 0x2080000052755374, 0x2A04000000000000,
    0x3140000000000000] : List Word64).all (fun w => answer w start == some (0x80, 0)) = true := by decide

/-- R105: no word matches two rows of the opcode table. -/
theorem test_opcodeTable_rows_disjoint :
    opcodeTable.Pairwise fun p q => p.pattern &&& q.mask ≠ q.pattern ∧ q.pattern &&& p.mask ≠ p.pattern := by decide

/-- spec/opcode_table.json: 30 rows, each pattern inside its mask. -/
theorem test_opcodeTable_rows : opcodeTable.length = 30 ∧ ∀ row ∈ opcodeTable, row.pattern &&& row.mask = row.pattern := by
  decide

/-- Every row's word is read by the decoder and is run as the first command after reset. -/
theorem test_every_row_decodes_and_runs : ∀ row ∈ opcodeTable,
    (decodeTableWord 64 row.pattern.toNat).map Instr.mnemonic = some row.mnemonic ∧
      goesOn row.pattern.toNat = true := by decide

/-! ### Assembler and pseudo-instructions (R109, R110) -/

theorem test_asm : Instr.asm (.ctByte 2 3) = "CT.BYTE t2, 3" ∧ Instr.asm (.chNew 1 0) = "CH.NEW c1, t0" ∧
    Instr.asm .obRd = "OB.RD" := by decide

theorem test_pseudo_crcOf : Pseudo.expand (.crcOf [0x61]) = [.crcInit, .crcUpd 0x61, .crcFin] := by decide

/-! ### The checksum -/

/-- R133: the printed table is `crc_step(0, n)`. -/
theorem test_crcTable_rows : Config.crcTable = (List.range 256).map fun n => crcStep 0 (BitVec.ofNat 8 n) := by
  decide +kernel

/-- V20, R131: the check value. -/
theorem test_crc32_check_value : crc32 [0x31, 0x32, 0x33, 0x34, 0x35, 0x36, 0x37, 0x38, 0x39] = 0xCBF43926 := by
  decide +kernel

/-- The payload of V1, `MSG` of 95_test_vectors. -/
def msg : List Byte :=
  [0x54, 0x68, 0x69, 0x73, 0x20, 0x69, 0x73, 0x20, 0x77, 0x68, 0x65, 0x72, 0x65, 0x20, 0x79, 0x6F, 0x75, 0x72, 0x20, 0x73,
   0x65, 0x63, 0x72, 0x65, 0x74, 0x20, 0x6D, 0x65, 0x73, 0x73, 0x61, 0x67, 0x65, 0x20, 0x77, 0x69, 0x6C, 0x6C, 0x20, 0x62,
   0x65, 0x21]

/-- V1: the source's own fixture, the one outside check of the constants. -/
theorem test_crc32_source_fixture : chunkChecksum (bytesBe32 0x52755374) msg = 0xABD1D84E := by decide +kernel

/-- V21: single steps. -/
theorem test_crcStep_values : crcStep 0xFFFFFFFF 0x00 = 0x2DFD1072 ∧ crcStep 0xFFFFFFFF 0x61 = 0x174841BC ∧
    crcStep 0xFFFFFFFF 0x80 = 0xC0459352 ∧ crcStep 0 0xFF = 0x2D02EF8D := by decide

/-! ### The CRC unit, one step each -/

/-- R136. -/
theorem test_crcInit : after State.crcr 0x1000000000000000 { start with crcr := 0x12345678 } = some 0xFFFFFFFF := by
  decide

/-- R137: a zero byte changes `CRCR` too. -/
theorem test_crcUpd : after State.crcr 0x1100000000000061 start = some 0x174841BC ∧
    after State.crcr 0x1100000000000000 start = some 0x2DFD1072 := by decide

/-- V22: `CRC.UPDB` over "1234". -/
theorem test_crcUpdb : after State.crcr 0x1200000000000000 (loaded [0x31, 0x32, 0x33, 0x34] start)
    = some 0x641C1F5C := by decide +kernel

/-- R139: the digest is answered and kept. -/
theorem test_crcFin : answer 0x1300000000000000 { start with crcr := 0x340BC6D9 } = some (0, 0xCBF43926) ∧
    after State.crcr 0x1300000000000000 { start with crcr := 0x340BC6D9 } = some 0x340BC6D9 := by decide

/-! ### The ChunkType unit, one step each -/

/-- V8: 52 byte values pass the letter check. -/
theorem test_isLetter_count : ((List.range 256).filter fun n => isLetter (BitVec.ofNat 8 n)).length = 52 := by decide

/-- V30: "RuSt" into `t[0]`. -/
theorem test_ctFrombytes : after (fun s => s.readT 0) 0x2000000052755374 start
    = some ⟨true, ⟨0x52, 0x75, 0x53, 0x74⟩⟩ := by decide

/-- V30: '[' in byte 2 fails, and the register keeps what it held. -/
theorem test_ctFrombytes_bad : answer 0x2030000052755B74 (typed 3 0x52755374 start) = some (1, 0) ∧
    after (fun s => (s.eexp, s.eact, s.flt, s.readT 3)) 0x2030000052755B74 (typed 3 0x52755374 start)
      = some (0, 0x52755B74, false, ⟨true, ⟨0x52, 0x75, 0x53, 0x74⟩⟩) := by decide

/-- V31: four good bytes, and five. -/
theorem test_ctFromtext : answer 0x2110000000000000 (loaded [0x41, 0x5A, 0x61, 0x7A] start) = some (0, 0) ∧
    after (fun s => (s.err, s.flt, s.eact)) 0x2110000000000000 (loaded [0x52, 0x75, 0x53, 0x74, 0x0A] start)
      = some (0x84, true, 0x2110000000000000) := by decide

/-- V31: the letter test on bytes. -/
theorem test_ctFromtext_bad : after (fun s => (s.err, s.flt, s.eact)) 0x2110000000000000
    (loaded [0x52, 0xC3, 0xA9, 0x73] start) = some (1, false, 0x52C3A973) := by decide

/-- V32. -/
theorem test_ctBytes : answer 0x2220000000000000 (typed 2 0x52755374 start) = some (0, 0x52755374) := by decide

/-- V32: byte 1 and byte 3 of "RuST". -/
theorem test_ctByte : answer 0x2320000000000001 (typed 2 0x52755354 start) = some (0, 0x75) ∧
    answer 0x2320000000000003 (typed 2 0x52755354 start) = some (0, 0x54) := by decide

/-- V32. -/
theorem test_ctText : answer 0x2420000000000000 (typed 2 0x624C4F62 start) = some (0, 0x624C4F62) := by decide

/-- V3: "RUST" is valid, "RUsT" is not. -/
theorem test_ctIsvalid : answer 0x2500000000000000 (typed 0 0x52555354 start) = some (0, 1) ∧
    answer 0x2500000000000000 (typed 0 0x52557354 start) = some (0, 0) := by decide

/-- V3: "RuSt" is critical, "ruSt" is not. -/
theorem test_ctIscrit : answer 0x2600000000000000 (typed 0 0x52755374 start) = some (0, 1) ∧
    answer 0x2600000000000000 (typed 0 0x72755374 start) = some (0, 0) := by decide

/-- V3: "rUST" is public, "ruST" is not. -/
theorem test_ctIspub : answer 0x2700000000000000 (typed 0 0x72555354 start) = some (0, 1) ∧
    answer 0x2700000000000000 (typed 0 0x72755354 start) = some (0, 0) := by decide

/-- V3: the reserved bit of "RUSt" and of "RUst". -/
theorem test_ctIsrsv : answer 0x2800000000000000 (typed 0 0x52555374 start) = some (0, 1) ∧
    answer 0x2800000000000000 (typed 0 0x52557374 start) = some (0, 0) := by decide

/-- V5: set means safe to copy, clear means not. -/
theorem test_ctIssafe : answer 0x2900000000000000 (typed 0 0x52755354 start) = some (0, 0) ∧
    answer 0x2910000000000000 (typed 1 0x52755374 start) = some (0, 1) := by decide

/-- V33: equal bytes in two registers, and an empty second source. -/
theorem test_ctEq : answer 0x2A02000000000000 (typed 2 0x52755374 (typed 0 0x52755374 start)) = some (0, 1) ∧
    answer 0x2A01000000000000 (typed 1 0x52755354 (typed 0 0x52755374 start)) = some (0, 0) ∧
    answer 0x2A03000000000000 (typed 0 0x52755374 start) = some (0x81, 0) := by decide

/-! ### The Chunk unit, one step each -/

/-- V40: "teSt" over 68 69. -/
theorem test_chNew : after (fun s => s.readC 0) 0x3000000000000000 (loaded [0x68, 0x69] (typed 0 0x74655374 start))
    = some ⟨true, 2, ⟨0x74, 0x65, 0x53, 0x74⟩, [0x68, 0x69], 0x63A94EDA⟩ := by decide +kernel

/-- V40: with `MAXLEN = 4` four bytes fit and five do not; an empty source comes first. -/
theorem test_chNew_capacity :
    answer 0x3000000000000000 (loaded [1, 2, 3, 4] (typed 0 0x74655374 (State.resetWith 4))) = some (0, 0) ∧
    answer 0x3000000000000000 (loaded [1, 2, 3, 4, 5] (typed 0 0x74655374 (State.resetWith 4))) = some (0x82, 0) ∧
    answer 0x3000000000000000 (loaded [1, 2, 3, 4, 5] (State.resetWith 4)) = some (0x81, 0) := by decide

/-- V41 rows 11 and 13: a good frame, trailing bytes or not. -/
theorem test_chParse : after (fun s => s.readC 1) 0x3110000000000000
    (loaded [0, 0, 0, 2, 0x74, 0x65, 0x53, 0x74, 0x68, 0x69, 0x63, 0xA9, 0x4E, 0xDA, 0, 0, 0] start)
    = some ⟨true, 2, ⟨0x74, 0x65, 0x53, 0x74⟩, [0x68, 0x69], 0x63A94EDA⟩ := by decide +kernel

/-- V41 rows 2, 5, 15 and 22: the order of the tests, no wrap, and what each records. -/
theorem test_chParse_fails :
    after (fun s => (s.err, s.eexp, s.eact)) 0x3110000000000000 (loaded [0, 0, 0, 0, 0x49, 0x45, 0x4E] start)
      = some (4, 8, 7) ∧
    after (fun s => (s.err, s.eexp, s.eact)) 0x3110000000000000 (loaded [0, 0, 0, 0, 0x49, 0x45, 0x31, 0x44] start)
      = some (1, 0, 0x49453144) ∧
    after (fun s => (s.err, s.eexp, s.eact)) 0x3110000000000000
      (loaded [0xFF, 0xFF, 0xFF, 0xF4, 0x74, 0x65, 0x53, 0x74, 0, 0, 0, 0, 0, 0, 0, 0] start)
      = some (4, 0x100000000, 16) ∧
    after (fun s => (s.err, s.eexp, s.eact)) 0x3110000000000000
      (loaded [0, 0, 0, 2, 0x74, 0x65, 0x53, 0x74, 0x68, 0x69, 0xDA, 0x4E, 0xA9, 0x63] start)
      = some (2, 0x63A94EDA, 0xDA4EA963) := by decide +kernel

/-- V42: the frame in `OBUF`. -/
theorem test_chSer : answer 0x3220000000000000 (chunked 2 0x74655374 [0x68, 0x69] 0x63A94EDA start) = some (0, 14) ∧
    after (fun s => memRead s.obuf 0 s.olen) 0x3220000000000000
      (chunked 2 0x74655374 [0x68, 0x69] 0x63A94EDA start)
      = some [0, 0, 0, 2, 0x74, 0x65, 0x53, 0x74, 0x68, 0x69, 0x63, 0xA9, 0x4E, 0xDA] := by decide

/-- V44. -/
theorem test_chLen : answer 0x3310000000000000 (chunked 1 0x74655374 [0x68, 0x69] 0x63A94EDA start) = some (0, 2) := by
  decide

/-- V44, R189: the overall length of `LENGTH = 0xFFFFFFFF` does not wrap. -/
theorem test_chOlen : answer 0x3400000000000000 (chunked 0 0x74655374 [0x68, 0x69] 0x63A94EDA start) = some (0, 14) ∧
    answer 0x3400000000000000 (start.writeC 0 0xFFFFFFFF ⟨0, 0, 0, 0⟩ [] 0) = some (0, 0x10000000B) := by decide

/-- V44: the copy and the answer. -/
theorem test_chType : answer 0x3531000000000000 (chunked 1 0x74455874 [] 0 start) = some (0, 0x74455874) ∧
    after (fun s => s.readT 3) 0x3531000000000000 (chunked 1 0x74455874 [] 0 start)
      = some ⟨true, ⟨0x74, 0x45, 0x58, 0x74⟩⟩ := by decide

/-- V42: the payload in `OBUF`, rewound. -/
theorem test_chData : after (fun s => (memRead s.obuf 0 s.olen, s.orp)) 0x3620000000000000
    (drained [1, 2, 3] 3 (chunked 2 0x74655374 [0x68, 0x69] 0x63A94EDA start)) = some ([0x68, 0x69], 0) := by decide

/-- V43: U+20AC passes; 61 C3 is cut short after one good byte. -/
theorem test_chDatastr : answer 0x3700000000000000 (chunked 0 0x74455874 [0xE2, 0x82, 0xAC] 0 start) = some (0, 3) ∧
    after (fun s => (s.err, s.eact, s.olen)) 0x3700000000000000 (chunked 0 0x74455874 [0x61, 0xC3] 0 start)
      = some (5, 1, 0) := by decide

/-- V43: which payloads are valid UTF-8. -/
theorem test_utf8Valid :
    (∀ d ∈ ([[], [0x00, 0x7F], [0xC3, 0xA9], [0xC2, 0x80], [0xDF, 0xBF], [0xE0, 0xA0, 0x80], [0xE2, 0x82, 0xAC],
      [0xED, 0x9F, 0xBF], [0xEE, 0x80, 0x80], [0xEF, 0xBF, 0xBF], [0xF0, 0x90, 0x80, 0x80], [0xF0, 0x9F, 0x98, 0x80],
      [0xF4, 0x8F, 0xBF, 0xBF]] : List (List Byte)), utf8Valid d = true) ∧
    (∀ d ∈ ([[0x68, 0xFF], [0xC3], [0x61, 0xC3], [0xC0, 0x80], [0xC1, 0xBF], [0x80], [0xC3, 0x28], [0xE0, 0x9F, 0xBF],
      [0xED, 0xA0, 0x80], [0xE2, 0x82], [0xF0, 0x8F, 0xBF, 0xBF], [0xF4, 0x90, 0x80, 0x80], [0xF5, 0x80, 0x80, 0x80],
      [0xF0, 0x9F, 0x98], [0x89, 0x50, 0x4E, 0x47]] : List (List Byte)), utf8Valid d = false) := by decide

/-- V44. -/
theorem test_chCrc : answer 0x3810000000000000 (chunked 1 0x74455874 [0x68, 0x69] 0x7569E6DF start)
    = some (0, 0x7569E6DF) := by decide

/-- V44: same chunk, other type, empty second source. -/
theorem test_chEq :
    answer 0x3902000000000000 (chunked 2 0x74655374 [0x68] 7 (chunked 0 0x74655374 [0x68] 7 start)) = some (0, 1) ∧
    answer 0x3901000000000000 (chunked 1 0x74455874 [0x68] 7 (chunked 0 0x74655374 [0x68] 7 start)) = some (0, 0) ∧
    answer 0x3903000000000000 (chunked 0 0x74655374 [0x68] 7 start) = some (0x81, 0) := by decide

/-! ### Buffers and system, one step each -/

/-- R223. -/
theorem test_ibClr : after State.ilen 0x4000000000000000 (loaded [1, 2] start) = some 0 := by decide

/-- V50: with `MAXLEN = 0` the twelfth byte fits and the thirteenth does not. -/
theorem test_ibPut : answer 0x4100000000000082 (loaded [0, 0, 0, 0, 0, 0, 0, 0, 0, 0, 0] (State.resetWith 0)) = some (0, 12) ∧
    after (fun s => (s.err, s.ilen, s.eact)) 0x41000000000000EE
      (loaded [0, 0, 0, 0, 0, 0, 0, 0, 0, 0, 0, 0] (State.resetWith 0)) = some (0x82, 12, 0x41000000000000EE) := by decide

/-- V42: a byte and the pointer after it, then the end. -/
theorem test_obRd : answer 0x4200000000000000 (drained [0x68, 0x69] 1 start) = some (0, 0x69) ∧
    after State.orp 0x4200000000000000 (drained [0x68, 0x69] 1 start) = some 2 ∧
    answer 0x4200000000000000 (drained [0x68, 0x69] 2 start) = some (0x83, 0) := by decide

/-- V42. -/
theorem test_obRew : answer 0x4300000000000000 (drained [0x68, 0x69] 2 start) = some (0, 2) ∧
    after State.orp 0x4300000000000000 (drained [0x68, 0x69] 2 start) = some 0 := by decide

/-- V51, V52: `VALID`, `MAXLEN` and `STATUS`. -/
theorem test_rd : answer 0x4800000000000007 (typed 1 0x49454E44 (chunked 3 0x49454E44 [] 0xAE426082 start)) = some (0, 0x802) ∧
    answer 0x4800000000000008 start = some (0, 64) ∧
    answer 0x4800000000000000 { start with err := 0x81, flt := true } = some (0, 0x181) := by decide

/-- V51: a successful `RD` clears nothing; an undefined number faults. -/
theorem test_rd_record : after (fun s => (s.err, s.eact)) 0x4800000000000002 { start with err := 0x80, eact := 5 }
      = some (0x80, 5) ∧
    after (fun s => (s.err, s.flt, s.eact)) 0x4800000000000009 start = some (0x80, true, 0x4800000000000009) := by decide

/-- V61: the order of the checks: an illegal word, then the empty source, then the capacity. -/
theorem test_check_order : answer 0x3004000000000000 (loaded [1, 2, 3, 4, 5] (State.resetWith 4)) = some (0x80, 0) ∧
    answer 0x3000000000000000 (loaded [1, 2, 3, 4, 5] (State.resetWith 4)) = some (0x81, 0) := by decide

/-- R40, R280: reset clears what the program P5 had left. -/
theorem test_reset : step { typed 0 0x52755374 start with err := 0x80, flt := true, pending := [.reset] }
    = .next start := by rfl

theorem test_reset_memory_wf : State.reset.ibuf.wf ∧ State.reset.obuf.wf := by decide

/-! ### Witnesses: states and operands that meet the hypotheses of the obligations, clause by clause -/

/-- A state with a full type register, a full slot and three bytes in each buffer. -/
def busy : State :=
  drained [1, 2, 3] 1 (loaded [0x68, 0x69, 0x21] (typed 1 0x52755374 (chunked 0 0x74655374 [0x68, 0x69] 0x63A94EDA start)))

/-- With `MAXLEN = 2` the payload of `c[0]` is as long as the parameter allows. -/
def tight : State := chunked 0 0x74655374 [0x68, 0x69] 0x63A94EDA (State.resetWith 2)

theorem tight_slot : SlotInvariant tight.maxlen (tight.readC 0) :=
  ⟨by decide, by decide +kernel, by decide, by decide⟩

theorem busy_slot : SlotInvariant busy.maxlen (busy.readC 0) := ⟨by decide, by decide +kernel, by decide, by decide⟩

theorem busy_invariant : Invariant busy where
  types := by decide
  slots := fun k hk => by
    obtain rfl : k = 0 := by revert k; decide
    exact busy_slot
  ilen_le := by decide
  olen_le := by decide
  orp_le := by decide
  ibuf_wf := by decide
  obuf_wf := by decide
  ibuf_inside := by decide
  obuf_inside := by decide
  err_legal := by decide
  fault_flagged := by decide

theorem witness_EncodeOfDecode : decode 0x2A02000000000000 = .ok (.ctEq 0 2) := by decide

theorem witness_DecodeMatchesOpcodeTable :
    (∃ i, decode 0x2330000000000003 = .ok i ∧ i.mnemonic = "CT.BYTE") ∧
    (∃ row ∈ opcodeTable, row.mnemonic = "CT.BYTE" ∧ 0x2330000000000003 &&& row.mask = row.pattern) ∧
    ¬ ∃ row ∈ opcodeTable, row.mnemonic = "CT.BYTE" ∧ 0x2330000000000004 &&& row.mask = row.pattern :=
  ⟨⟨.ctByte 3 3, by decide, by decide⟩, by decide, by decide⟩

/-- All three clauses: a command, no action, a reset. -/
theorem witness_StepRunsDecodedCommand :
    ((start.withFetchWord 64 0x4000000000000000).pending = .command 0x4000000000000000 :: [] ∧
      decode 0x4000000000000000 = .ok .ibClr) ∧
    start.pending = [] ∧
    ({ start with pending := [.reset, .command 0] } : State).pending = .reset :: [.command 0] := by decide

theorem witness_IllegalWordFaults :
    ((start.withFetchWord 64 0x3004000000000000).pending = .command 0x3004000000000000 :: [] ∧
      ∀ row ∈ opcodeTable, 0x3004000000000000 &&& row.mask ≠ row.pattern) ∧
    8 < (0x09 : Byte).toNat := by decide

theorem witness_ResetEventAndOnlyItClears :
    ({ busy with pending := [.reset] } : State).pending = .reset :: [] ∧
    ∃ t, (busy.withFetchWord 64 0x4200000000000000).pending = .command 0x4200000000000000 :: [] ∧
      step (busy.withFetchWord 64 0x4200000000000000) = .next t ∧ (busy.readT 1).valid = true ∧
      (busy.readC 0).valid = true :=
  ⟨by decide, _, by decide, rfl, by decide, by decide⟩

theorem witness_ResetEventAndOnlyItClears_flt :
    ∃ t, step (({ busy with flt := true } : State).withFetchWord 64 0x4300000000000000) = .next t ∧ t.flt = true :=
  ⟨_, rfl, by decide⟩

theorem witness_CrcUpdbStepsInputBuffer : start.ilen = 0 := by decide

theorem witness_SingleByteChangeDetected : (0x54 : Byte) ≠ 0x74 := by decide

/-- The input buffer as full as `CH.NEW` takes it. -/
theorem witness_StreamedDigestIsChunkChecksum :
    ((loaded [1, 2] (typed 1 0x52755374 tight)).readT 1).valid = true ∧
    (loaded [1, 2] (typed 1 0x52755374 tight)).ilen ≤ (loaded [1, 2] (typed 1 0x52755374 tight)).maxlen.toNat := by
  decide

/-- All four letters at the ends of the two ranges; one byte just outside. -/
theorem witness_CtFrombytesConstructs :
    (isLetter ((0x415A617A : Word32).extractLsb' 24 8) ∧ isLetter ((0x415A617A : Word32).extractLsb' 16 8) ∧
      isLetter ((0x415A617A : Word32).extractLsb' 8 8) ∧ isLetter ((0x415A617A : Word32).extractLsb' 0 8)) ∧
    ¬ (isLetter ((0x415B617A : Word32).extractLsb' 24 8) ∧ isLetter ((0x415B617A : Word32).extractLsb' 16 8) ∧
      isLetter ((0x415B617A : Word32).extractLsb' 8 8) ∧ isLetter ((0x415B617A : Word32).extractLsb' 0 8)) := by
  decide

/-- `ILEN` of 3 and 5; of 4 with a digit; of 4 with letters. -/
theorem witness_CtFromtextConstructs :
    (loaded [0x52, 0x75, 0x53] start).ilen ≠ 4 ∧ (loaded [0x52, 0x75, 0x53, 0x74, 0x0A] start).ilen ≠ 4 ∧
    ((loaded [0x52, 0x75, 0x31, 0x74] start).ilen = 4 ∧ ¬ (memReadQuad (loaded [0x52, 0x75, 0x31, 0x74] start).ibuf 0).letters) ∧
    (loaded [0x41, 0x5A, 0x61, 0x7A] start).ilen = 4 ∧
      (memReadQuad (loaded [0x41, 0x5A, 0x61, 0x7A] start).ibuf 0).letters := by decide

/-- A full and an empty source; the lowest and the highest type of letters. -/
theorem witness_CtBytesByteTextAnswer :
    (typed 1 0x52755374 start).readT 1 = ⟨true, ⟨0x52, 0x75, 0x53, 0x74⟩⟩ ∧ (start.readT 1).valid = false ∧
    (⟨0x41, 0x41, 0x41, 0x41⟩ : Quad).letters = true ∧ (⟨0x7A, 0x7A, 0x7A, 0x7A⟩ : Quad).letters = true := by decide

theorem witness_CtPropertyQueriesAnswer :
    (typed 2 0x52755374 start).readT 2 = ⟨true, ⟨0x52, 0x75, 0x53, 0x74⟩⟩ ∧ (start.readT 2).valid = false := by decide

/-- Both sources full; the first empty; the second empty. -/
theorem witness_CtEqCompares :
    ((typed 1 0x52755354 (typed 0 0x52755374 start)).readT 0 = ⟨true, ⟨0x52, 0x75, 0x53, 0x74⟩⟩ ∧
      (typed 1 0x52755354 (typed 0 0x52755374 start)).readT 1 = ⟨true, ⟨0x52, 0x75, 0x53, 0x54⟩⟩) ∧
    ((typed 1 0x52755354 start).readT 0).valid = false ∧ ((typed 0 0x52755354 start).readT 1).valid = false := by decide

/-- `ILEN` at `MAXLEN`, one above it, and an empty source. -/
theorem witness_ChNewConstructs :
    ((loaded [1, 2] (typed 1 0x52755374 tight)).readT 1 = ⟨true, ⟨0x52, 0x75, 0x53, 0x74⟩⟩ ∧
      (loaded [1, 2] (typed 1 0x52755374 tight)).ilen = (loaded [1, 2] (typed 1 0x52755374 tight)).maxlen.toNat ∧
      (⟨0x52, 0x75, 0x53, 0x74⟩ : Quad).letters) ∧
    (((loaded [1, 2, 3] (typed 1 0x52755374 tight)).readT 1).valid = true ∧
      (loaded [1, 2, 3] (typed 1 0x52755374 tight)).maxlen.toNat < (loaded [1, 2, 3] (typed 1 0x52755374 tight)).ilen) ∧
    (tight.readT 1).valid = false := by decide

/-- `ILEN` of 7; of 8 with a digit in the type. -/
theorem witness_ChParseOutcomes_before :
    (loaded [0, 0, 0, 0, 0x49, 0x45, 0x4E] start).ilen < 8 ∧
    ∃ y : Quad, 8 ≤ (loaded [0, 0, 0, 0, 0x49, 0x45, 0x31, 0x44] start).ilen ∧
      y.toList = memRead (loaded [0, 0, 0, 0, 0x49, 0x45, 0x31, 0x44] start).ibuf 4 4 ∧ ¬ y.letters :=
  ⟨by decide, ⟨0x49, 0x45, 0x31, 0x44⟩, by decide, by decide, by decide⟩

/-- The frame of "IEND" cut after 11 bytes: one byte short. -/
theorem witness_ChParseOutcomes_short :
    ∃ q y : Quad, 8 ≤ (loaded [0, 0, 0, 0, 0x49, 0x45, 0x4E, 0x44, 0xAE, 0x42, 0x60] start).ilen ∧
      q.toList = memRead (loaded [0, 0, 0, 0, 0x49, 0x45, 0x4E, 0x44, 0xAE, 0x42, 0x60] start).ibuf 0 4 ∧
      y.toList = memRead (loaded [0, 0, 0, 0, 0x49, 0x45, 0x4E, 0x44, 0xAE, 0x42, 0x60] start).ibuf 4 4 ∧ y.letters ∧
      (loaded [0, 0, 0, 0, 0x49, 0x45, 0x4E, 0x44, 0xAE, 0x42, 0x60] start).ilen < 12 + (be32 q).toNat :=
  ⟨⟨0, 0, 0, 0⟩, ⟨0x49, 0x45, 0x4E, 0x44⟩, by decide, by decide, by decide, by decide, by decide⟩

/-- The frame of "IEND", whole, with its checksum off by one and right. -/
theorem witness_ChParseOutcomes_whole :
    let bad := loaded [0, 0, 0, 0, 0x49, 0x45, 0x4E, 0x44, 0xAE, 0x42, 0x60, 0x83] start
    let good := loaded [0, 0, 0, 0, 0x49, 0x45, 0x4E, 0x44, 0xAE, 0x42, 0x60, 0x82] start
    let zero : Quad := ⟨0, 0, 0, 0⟩
    let iend : Quad := ⟨0x49, 0x45, 0x4E, 0x44⟩
    (zero.toList = memRead bad.ibuf 0 4 ∧ iend.toList = memRead bad.ibuf 4 4 ∧ iend.letters ∧
      12 + (be32 zero).toNat ≤ bad.ilen ∧ Quad.toList ⟨0xAE, 0x42, 0x60, 0x83⟩ = memRead bad.ibuf 8 4 ∧
      crc32 (iend.toList ++ memRead bad.ibuf 8 0) ≠ be32 ⟨0xAE, 0x42, 0x60, 0x83⟩) ∧
    (zero.toList = memRead good.ibuf 0 4 ∧ iend.toList = memRead good.ibuf 4 4 ∧ iend.letters ∧
      12 + (be32 zero).toNat ≤ good.ilen ∧ Quad.toList ⟨0xAE, 0x42, 0x60, 0x82⟩ = memRead good.ibuf 8 4 ∧
      crc32 (iend.toList ++ memRead good.ibuf 8 0) = be32 ⟨0xAE, 0x42, 0x60, 0x82⟩) := by decide +kernel

/-- A full slot whose payload is as long as `MAXLEN` allows, and an empty one. -/
theorem witness_ChSerWritesFrame :
    ((tight.readC 0).valid = true ∧ SlotInvariant tight.maxlen (tight.readC 0) ∧ 14 = 12 + (tight.readC 0).length.toNat) ∧
    (tight.readC 1).valid = false := ⟨⟨by decide, tight_slot, by decide⟩, by decide⟩

theorem witness_ChLenOlenCrcAnswer : (tight.readC 0).valid = true ∧ (tight.readC 1).valid = false := by decide

theorem witness_ChTypeCopies : (tight.readC 0).valid = true ∧ (tight.readC 1).valid = false := by decide

theorem witness_ChDataCopiesPayload :
    ((tight.readC 0).valid = true ∧ SlotInvariant tight.maxlen (tight.readC 0) ∧ 2 = (tight.readC 0).length.toNat) ∧
    (tight.readC 1).valid = false := ⟨⟨by decide, tight_slot, by decide⟩, by decide⟩

/-- 68 69 is two one-byte patterns. -/
theorem utf8Text_hi : Utf8Text [0x68, 0x69] :=
  .pattern [(0x00, 0x7F)] [0x68] [0x69] (by decide) (by simp)
    (.pattern [(0x00, 0x7F)] [0x69] [] (by decide) (by simp) .nil)

/-- No pattern starts with FF. -/
theorem not_utf8Text_ff : ¬ Utf8Text [0xFF] := by
  intro h
  generalize he : ([0xFF] : List Byte) = l at h
  cases h with
  | nil => cases he
  | pattern row bytes rest hr hb _ =>
    cases hb with
    | nil => revert hr; decide
    | @cons r b _ _ h _ =>
      obtain rfl : b = 0xFF := by simpa using (List.cons.inj he).1.symm
      have hmax : ∀ row ∈ utf8Table, ∀ r ∈ row.head?, r.2 < 255 := by decide
      have := hmax _ hr r rfl
      simp at h
      omega

/-- A valid payload, an invalid one, and an empty slot. -/
theorem witness_ChDatastrChecksPayload :
    ((tight.readC 0).valid = true ∧ SlotInvariant tight.maxlen (tight.readC 0) ∧ 2 = (tight.readC 0).length.toNat ∧
      Utf8Text (tight.readC 0).data) ∧
    (((chunked 1 0x74455874 [0xFF] 0 start).readC 1).valid = true ∧
      ¬ Utf8Text ((chunked 1 0x74455874 [0xFF] 0 start).readC 1).data) ∧
    (tight.readC 1).valid = false :=
  ⟨⟨by decide, tight_slot, by decide, utf8Text_hi⟩, ⟨by decide, not_utf8Text_ff⟩, by decide⟩

/-- Both sources full; the first empty; the second empty. -/
theorem witness_ChEqCompares :
    (((chunked 1 0x74455874 [] 7 tight).readC 0).valid = true ∧ ((chunked 1 0x74455874 [] 7 tight).readC 1).valid = true) ∧
    (tight.readC 1).valid = false ∧ ((chunked 1 0x74455874 [] 7 start).readC 0).valid = false := by decide

theorem witness_EqualTypeAndDataIsEqualChunk : Invariant busy ∧ (busy.readC 0).valid = true :=
  ⟨busy_invariant, by decide⟩

/-- The next state of an answer. -/
def nextOf : Result → Option State
  | .next t => some t
  | .fault _ | .refused _ => none

theorem eq_next_of_nextOf {o : Result} {t : State} (h : nextOf o = some t) : o = .next t := by
  cases o <;> simp_all [nextOf]

/-- The frame of "IEND" in a buffer it fills. -/
theorem witness_SerializeUndoesParse :
    let s := loaded [0, 0, 0, 0, 0x49, 0x45, 0x4E, 0x44, 0xAE, 0x42, 0x60, 0x82] (State.resetWith 0)
    ∃ t, s.ilen ≤ s.bufferCapacity ∧ exec (.chParse 1) s = .next t ∧ t.err = 0 ∧
      s.ilen = 12 + (t.readC 1).length.toNat :=
  ⟨answered 0 (State.writeC (loaded [0, 0, 0, 0, 0x49, 0x45, 0x4E, 0x44, 0xAE, 0x42, 0x60, 0x82] (State.resetWith 0)) 1 0
      ⟨0x49, 0x45, 0x4E, 0x44⟩ [] 0xAE426082),
    by decide, eq_next_of_nextOf (by decide +kernel), rfl, by decide⟩

/-- The frame that was serialized, copied into the input buffer. -/
theorem witness_ParseUndoesSerialize :
    ∃ u, (tight.readC 0).valid = true ∧ SlotInvariant tight.maxlen (tight.readC 0) ∧
      exec (.chSer 0) tight = .next u ∧
      (loaded [0, 0, 0, 2, 0x74, 0x65, 0x53, 0x74, 0x68, 0x69, 0x63, 0xA9, 0x4E, 0xDA] u).readC 0 = tight.readC 0 ∧
      memRead (loaded [0, 0, 0, 2, 0x74, 0x65, 0x53, 0x74, 0x68, 0x69, 0x63, 0xA9, 0x4E, 0xDA] u).ibuf 0 14
        = memRead u.obuf 0 u.olen :=
  ⟨_, by decide, tight_slot, rfl, by decide, by decide⟩

/-- One byte of room, and none. -/
theorem witness_IbPutAppendsByte :
    (loaded [0, 0, 0, 0, 0, 0, 0, 0, 0, 0, 0] (State.resetWith 0)).ilen < (State.resetWith 0).maxlen.toNat + 12 ∧
    (loaded [0, 0, 0, 0, 0, 0, 0, 0, 0, 0, 0, 0] (State.resetWith 0)).ilen = (State.resetWith 0).maxlen.toNat + 12 := by
  decide

/-- The last byte, and the end. -/
theorem witness_ObRdReadsNextByte :
    (drained [1, 2] 1 start).orp < (drained [1, 2] 1 start).olen ∧
    (drained [1, 2] 2 start).olen ≤ (drained [1, 2] 2 start).orp := by decide

theorem witness_RdReadsRegisters : 8 < (0x09 : Byte).toNat ∧ 8 < (0xFF : Byte).toNat := by decide

/-- Twelve bytes fill the buffer of a block with `MAXLEN = 0`. -/
theorem witness_LoadFillsInputBuffer :
    ([0, 0, 0, 0, 0x49, 0x45, 0x4E, 0x44, 0xAE, 0x42, 0x60, 0x82] : List Byte).length
      ≤ (State.resetWith 0).bufferCapacity := by decide

theorem witness_DrainReadsOutputBuffer : busy.orp + 2 ≤ busy.olen := by decide

/-- An empty type register, an empty slot, and only the second of two sources empty; an answer of 0x81. -/
theorem witness_EmptySourceFaults :
    emptySource (.chNew 0 0) busy ∧ emptySource (.chSer 1) busy ∧ emptySource (.ctEq 1 2) busy ∧
    ∃ t, exec (.chSer 1) busy = .next t ∧ t.responses = ⟨0x81, 0⟩ :: busy.responses :=
  ⟨by decide, by decide, by decide, _, rfl, by decide⟩

theorem witness_EveryCommandAnswersOnce : ∃ t, exec .obRd busy = .next t := ⟨_, rfl⟩

/-- An error and a fault. -/
theorem witness_FailureWritesOnlyStatus :
    (∃ t, exec (.ctFrombytes 0 0x52753174) busy = .next t ∧ t.responses = ⟨0x01, 0⟩ :: busy.responses) ∧
    ∃ t, exec (.chSer 1) busy = .next t ∧ t.responses = ⟨0x81, 0⟩ :: busy.responses :=
  ⟨⟨_, rfl, by decide⟩, _, rfl, by decide⟩

/-- A success that is no `RD`, and an `RD`. -/
theorem witness_SuccessWritesStatus :
    (∃ t, exec .obRd busy = .next t ∧ t.responses = ⟨0, 2⟩ :: busy.responses ∧ ∀ n, Instr.obRd ≠ .rd n) ∧
    ∃ t, exec (.rd 5) busy = .next t ∧ t.responses = ⟨0, 3⟩ :: busy.responses :=
  ⟨⟨_, rfl, by decide, by simp⟩, _, rfl, by decide⟩

theorem witness_OnlyDestinationChanges : ∃ t, exec (.chType 0 0) busy = .next t ∧
    typeDestination (.chType 0 0) ≠ some 1 ∧ slotDestination (.chType 0 0) ≠ some 0 := ⟨_, rfl, by decide, by decide⟩

/-- A command of each kind: one that writes `OBUF`, one that writes `IBUF`, one that writes neither. -/
theorem witness_UnitsStayApart :
    (∃ t, exec (.chData 0) busy = .next t ∧ writesCrcr (.chData 0) = false) ∧
    (∃ t, exec (.ibPut 7) busy = .next t ∧ producesOutput (.ibPut 7) = false) ∧
    ∃ t, exec .crcUpdb busy = .next t ∧ Instr.crcUpdb ≠ .ibClr :=
  ⟨⟨_, rfl, by decide⟩, ⟨_, rfl, by decide⟩, _, rfl, by decide⟩

theorem witness_StepGoesOnAndKeepsInvariant : Invariant busy := busy_invariant

/-- `busy` with other bytes where none can be seen: in an empty register, above `ILEN` and above `OLEN`. -/
def busyElsewhere : State :=
  { busy with
    t := busy.t.set 2 ⟨false, ⟨9, 9, 9, 9⟩⟩
    ibuf := memWriteAll [] 0 [0x68, 0x69, 0x21, 9]
    obuf := memWriteAll [] 0 [1, 2, 3, 9] }

theorem busyElsewhere_invariant : Invariant busyElsewhere where
  types := by decide
  slots := fun k hk => by
    obtain rfl : k = 0 := by revert k; decide
    exact busy_slot
  ilen_le := by decide
  olen_le := by decide
  orp_le := by decide
  ibuf_wf := by decide
  obuf_wf := by decide
  ibuf_inside := by decide
  obuf_inside := by decide
  err_legal := by decide
  fault_flagged := by decide

theorem witness_UnobservableBytesNeverShow :
    Invariant busy ∧ Invariant busyElsewhere ∧ SameVisible busy busyElsewhere ∧ busy ≠ busyElsewhere :=
  ⟨busy_invariant, busyElsewhere_invariant,
    ⟨by decide, by decide, by decide, fun _ _ => rfl, rfl, rfl, by decide, rfl, by decide, rfl, rfl, rfl, rfl, rfl, rfl, rfl,
      rfl⟩, by decide⟩

end Sys2Proof.Tests
end

section
/-! The CRC commands that write `CRCR` (spec/40_crc.md R136, R137): one equation per command for what `exec` does. -/

namespace Sys2Proof.Machine

/-- R136: `respond_eq` says that the answer writes nothing besides `ERR`, `EEXP`, `EACT` and the response. -/
@[simp] theorem exec_crcInit (s : State) : exec .crcInit s = .next (answered 0 { s with crcr := crcInitial }) :=
  respond_eq 0 { s with crcr := crcInitial }

/-- R137. -/
@[simp] theorem exec_crcUpd (b : Byte) (s : State) :
    exec (.crcUpd b) s = .next (answered 0 { s with crcr := crcStep s.crcr b }) :=
  respond_eq 0 { s with crcr := crcStep s.crcr b }

/-- R101, format I8: the byte operand is the low 8 bits of the word, below the opcode. -/
theorem toNat_commandWord_byte {op : Nat} (ho : op < 256) (b : Byte) :
    (commandWord op 0 0 b.toNat).toNat = op * 2 ^ 56 + b.toNat := by
  have hb : b.toNat < 2 ^ 32 := by omega
  rw [toNat_commandWord ho (by decide) (by decide) hb]
  simp only [Nat.zero_mul, Nat.add_zero]

/-- Settles O9: the word is evaluated, the next state is `exec_crcInit` with the value of `crcInitial`. -/
theorem crcInitStartsDigest : Obligations.CrcInitStartsDigest :=
  ⟨by decide, exec_crcInit⟩

/-- Settles O10: the word by the numeric form of a format I8 word, the next state by `exec_crcUpd`. -/
theorem crcUpdStepsOneByte : Obligations.CrcUpdStepsOneByte :=
  ⟨toNat_commandWord_byte (op := 0x11) (by decide), exec_crcUpd⟩

end Sys2Proof.Machine
end

section
/-! The ChunkType unit (spec/41_chunktype.md R152 to R164): the words of formats A, AI2, AI32 and AB, one equation per
command for what `exec` does, and the statements O18 to O22. -/

namespace Sys2Proof.Machine

/-! ### Command words with register operands (R100 to R102) -/

/-- R100: the general form, with every field in range. -/
theorem toNat_commandWord_index {op imm : Nat} (ho : op < 256) (hi : imm < 2 ^ 32) (ra rb : Index) :
    (commandWord op ra.val rb.val imm).toNat = op * 2 ^ 56 + ra.val * 2 ^ 52 + rb.val * 2 ^ 48 + imm :=
  toNat_commandWord ho (by omega) (by omega) hi

/-- R101, formats AI2 and AI32. -/
theorem toNat_commandWord_AI {op imm : Nat} (ho : op < 256) (hi : imm < 2 ^ 32) (ra : Index) :
    (commandWord op ra.val 0 imm).toNat = op * 2 ^ 56 + ra.val * 2 ^ 52 + imm := by
  simpa using toNat_commandWord_index ho hi ra 0

/-- R101, format A. -/
theorem toNat_commandWord_A {op : Nat} (ho : op < 256) (ra : Index) :
    (commandWord op ra.val 0 0).toNat = op * 2 ^ 56 + ra.val * 2 ^ 52 := by
  rw [toNat_commandWord_AI ho (by decide), Nat.add_zero]

/-- R101, format AB. -/
theorem toNat_commandWord_AB {op : Nat} (ho : op < 256) (ra rb : Index) :
    (commandWord op ra.val rb.val 0).toNat = op * 2 ^ 56 + ra.val * 2 ^ 52 + rb.val * 2 ^ 48 := by
  rw [toNat_commandWord_index ho (by decide), Nat.add_zero]

/-! ### Letters and four-byte values (R11, R150 to R153) -/

theorem letters_iff {y : Quad} :
    y.letters = true ↔ isLetter y.b0 ∧ isLetter y.b1 ∧ isLetter y.b2 ∧ isLetter y.b3 := by
  simp only [Quad.letters, Bool.and_eq_true, and_assoc]

/-- The ends of the two letter ranges of R150. -/
theorem isLetter_bounds {b : Byte} (h : isLetter b = true) : 65 ≤ b.toNat ∧ b.toNat ≤ 122 := by
  simp only [isLetter, Bool.and_eq_true, decide_eq_true_eq] at h
  exact h.1

/-- R156: a packed type of letters lies between the packed `AAAA` and `zzzz`. -/
theorem be32_bounds_of_letters {y : Quad} (h : y.letters = true) :
    0x41414141 ≤ (be32 y).toNat ∧ (be32 y).toNat ≤ 0x7A7A7A7A := by
  obtain ⟨h0, h1, h2, h3⟩ := letters_iff.mp h
  have := isLetter_bounds h0
  have := isLetter_bounds h1
  have := isLetter_bounds h2
  have := isLetter_bounds h3
  rw [toNat_be32]
  omega

theorem getD_toList (y : Quad) (k : Index) : y.toList.getD k.val 0 = y.get k :=
  match k with
  | 0 | 1 | 2 | 3 => rfl

/-- R153. -/
theorem quad_eq_iff {y z : Quad} : y = z ↔ y.b0 = z.b0 ∧ y.b1 = z.b1 ∧ y.b2 = z.b2 ∧ y.b3 = z.b3 := by
  cases y
  cases z
  rw [Quad.mk.injEq]

/-! ### Boolean results (R108) -/

theorem boolValue_decide (p : Prop) [Decidable p] : boolValue (decide p) = if p then 1 else 0 := by
  simp only [boolValue, decide_eq_true_eq]

/-- The polarity of `safe_to_copy` (R151). -/
theorem boolValue_bit5 (b : Byte) : boolValue (bit5 b) = if b &&& 0x20 ≠ 0 then 1 else 0 := by
  simp only [boolValue, bit5, bne_iff_ne]

/-- The polarity of the other property bits (R151). -/
theorem boolValue_not_bit5 (b : Byte) : boolValue (!bit5 b) = if b &&& 0x20 = 0 then 1 else 0 := by
  simp only [boolValue, bit5, Bool.not_eq_true', bne_eq_false_iff_eq]

/-! ### The constructors (R152, R154) -/

theorem constructType_of_letters {td : Index} {y : Quad} {s : State} (h : y.letters = true) :
    constructType td y s = .next (answered 0 { s with t := s.t.set td ⟨true, y⟩ }) := by
  rw [constructType_eq, if_pos h, State.writeT]

theorem constructType_of_not_letters {td : Index} {y : Quad} {s : State} (h : ¬ y.letters = true) :
    constructType td y s = .next (failedWith 0x01 0 (zext32 (be32 y)) s) := by
  rw [constructType_eq, if_neg h]

/-- R152. -/
theorem exec_ctFrombytes (td : Index) (imm : Word32) (s : State) :
    exec (.ctFrombytes td imm) s = constructType td (bytesBe32 imm) s := rfl

/-- R154: the length test comes first. -/
theorem exec_ctFromtext_of_ilen_ne {td : Index} {s : State} (h : s.ilen ≠ 4) :
    exec (.ctFromtext td) s = .next (failedWith 0x84 0 (encode (.ctFromtext td)) s) := by
  rw [exec, execCtFromtext, if_pos h, faultOf_eq, Cause.code]

theorem exec_ctFromtext_of_ilen_eq {td : Index} {s : State} (h : s.ilen = 4) :
    exec (.ctFromtext td) s = constructType td (memReadQuad s.ibuf 0) s := by
  rw [exec, execCtFromtext, if_neg (not_not_intro h)]

/-- Settles O18: the two cases of the constructor, with the error context `be32(bytes_be32(imm)) = imm`. -/
theorem ctFrombytesConstructs : Obligations.CtFrombytesConstructs := by
  refine ⟨fun td imm => toNat_commandWord_AI (op := 0x20) (by decide) imm.isLt td, ?_⟩
  rintro td imm s _ _ _ _ rfl rfl rfl rfl
  have hl := letters_iff (y := bytesBe32 imm)
  rw [exec_ctFrombytes]
  refine ⟨fun h => constructType_of_letters (hl.mpr h), fun h => ?_⟩
  rw [constructType_of_not_letters (mt hl.mp h), be32_bytesBe32]

/-- Settles O19: the length test, then the constructor on the bytes read; `CT.FROMBYTES` gets the same bytes because
`bytes_be32(be32(y)) = y`. -/
theorem ctFromtextConstructs : Obligations.CtFromtextConstructs := by
  refine ⟨toNat_commandWord_A (op := 0x21) (by decide), ?_⟩
  intro td s y hy
  have hread : s.ilen = 4 → exec (.ctFromtext td) s = constructType td y s := fun h =>
    hy ▸ exec_ctFromtext_of_ilen_eq h
  refine ⟨exec_ctFromtext_of_ilen_ne, fun h hn => ?_, fun h hl => ?_, fun h => ?_⟩
  · rw [hread h, constructType_of_not_letters hn]
  · rw [hread h, constructType_of_letters hl]
  · rw [hread h, exec_ctFrombytes, bytesBe32_be32]

/-! ### The queries of one register (R156 to R163) -/

/-- `queryType_full` for a register given by its bytes. -/
theorem queryType_of_readT {i : Instr} {ts : Index} {answer : Quad → Word64} {s : State} {y : Quad}
    (h : s.readT ts = ⟨true, y⟩) : queryType i ts answer s = .next (answered (answer y) s) := by
  rw [queryType_full (by rw [h]), h]

/-- R156. -/
theorem exec_ctBytes (ts : Index) (s : State) :
    exec (.ctBytes ts) s = queryType (.ctBytes ts) ts (fun y => zext32 (be32 y)) s := rfl

/-- R157. -/
theorem exec_ctByte (ts k : Index) (s : State) :
    exec (.ctByte ts k) s = queryType (.ctByte ts k) ts (fun y => zext8 (y.toList.getD k.val 0)) s := by
  simp only [exec, execCtByte, getD_toList]

/-- R158. -/
theorem exec_ctText (ts : Index) (s : State) :
    exec (.ctText ts) s = queryType (.ctText ts) ts (fun y => zext32 (be32 y)) s := rfl

/-- R159. -/
theorem exec_ctIsvalid (ts : Index) (s : State) :
    exec (.ctIsvalid ts) s = queryType (.ctIsvalid ts) ts (fun y => if y.b2 &&& 0x20 = 0 then 1 else 0) s := by
  simp only [exec, execCtIsvalid, typeValid, reservedBitValid, boolValue_not_bit5]

/-- R160. -/
theorem exec_ctIscrit (ts : Index) (s : State) :
    exec (.ctIscrit ts) s = queryType (.ctIscrit ts) ts (fun y => if y.b0 &&& 0x20 = 0 then 1 else 0) s := by
  simp only [exec, execCtIscrit, critical, boolValue_not_bit5]

/-- R161. -/
theorem exec_ctIspub (ts : Index) (s : State) :
    exec (.ctIspub ts) s = queryType (.ctIspub ts) ts (fun y => if y.b1 &&& 0x20 = 0 then 1 else 0) s := by
  simp only [exec, execCtIspub, isPublic, boolValue_not_bit5]

/-- R162. -/
theorem exec_ctIsrsv (ts : Index) (s : State) :
    exec (.ctIsrsv ts) s = queryType (.ctIsrsv ts) ts (fun y => if y.b2 &&& 0x20 = 0 then 1 else 0) s := by
  simp only [exec, execCtIsrsv, reservedBitValid, boolValue_not_bit5]

/-- R163: set means true. -/
theorem exec_ctIssafe (ts : Index) (s : State) :
    exec (.ctIssafe ts) s = queryType (.ctIssafe ts) ts (fun y => if y.b3 &&& 0x20 ≠ 0 then 1 else 0) s := by
  simp only [exec, execCtIssafe, safeToCopy, boolValue_bit5]

/-- Settles O20: the three commands are queries of one register, full (`queryType_of_readT`) or empty
(`queryType_empty`); the bounds are `be32_bounds_of_letters`. -/
theorem ctBytesByteTextAnswer : Obligations.CtBytesByteTextAnswer := by
  refine ⟨toNat_commandWord_A (op := 0x22) (by decide),
    fun ts k => toNat_commandWord_AI (op := 0x23) (by decide) (by omega) ts,
    toNat_commandWord_A (op := 0x24) (by decide), ?_, ?_, fun _ => be32_bounds_of_letters⟩
  · intro ts k s y h
    rw [exec_ctBytes, exec_ctByte, exec_ctText]
    exact ⟨queryType_of_readT h, queryType_of_readT h, queryType_of_readT h⟩
  · intro ts k s h
    rw [exec_ctBytes, exec_ctByte, exec_ctText]
    exact ⟨queryType_empty h, queryType_empty h, queryType_empty h⟩

/-- Settles O21: the five commands are queries of one register, each equation naming its byte and its polarity. -/
theorem ctPropertyQueriesAnswer : Obligations.CtPropertyQueriesAnswer := by
  refine ⟨fun ts => ⟨toNat_commandWord_A (op := 0x25) (by decide) ts,
    toNat_commandWord_A (op := 0x26) (by decide) ts, toNat_commandWord_A (op := 0x27) (by decide) ts,
    toNat_commandWord_A (op := 0x28) (by decide) ts, toNat_commandWord_A (op := 0x29) (by decide) ts⟩, ?_, ?_⟩
  · intro ts s y h
    rw [exec_ctIsvalid, exec_ctIscrit, exec_ctIspub, exec_ctIsrsv, exec_ctIssafe]
    exact ⟨queryType_of_readT h, queryType_of_readT h, queryType_of_readT h, queryType_of_readT h,
      queryType_of_readT h⟩
  · intro ts s h
    rw [exec_ctIsvalid, exec_ctIscrit, exec_ctIspub, exec_ctIsrsv, exec_ctIssafe]
    exact ⟨queryType_empty h, queryType_empty h, queryType_empty h, queryType_empty h, queryType_empty h⟩

/-! ### The comparison (R164) -/

theorem exec_ctEq_full {ta tb : Index} {s : State} {y z : Quad} (ha : s.readT ta = ⟨true, y⟩)
    (hb : s.readT tb = ⟨true, z⟩) :
    exec (.ctEq ta tb) s = .next (answered (if y = z then 1 else 0) s) := by
  rw [exec, execCtEq, withType_full (by rw [ha]), withType_full (by rw [hb]), ha, hb, respond_eq, boolValue_decide]

/-- R164, R246: the first source is tested first, and both tests fail alike. -/
theorem exec_ctEq_empty {ta tb : Index} {s : State}
    (h : (s.readT ta).valid = false ∨ (s.readT tb).valid = false) :
    exec (.ctEq ta tb) s = .next (failedWith 0x81 0 (encode (.ctEq ta tb)) s) := by
  rw [exec, execCtEq]
  cases ha : (s.readT ta).valid with
  | false => exact withType_empty ha
  | true =>
    have hb : (s.readT tb).valid = false := h.resolve_left (by simp [ha])
    rw [withType_full ha, withType_empty hb]

/-- Settles O22: equality of four-byte values is equality at every position (`quad_eq_iff`). -/
theorem ctEqCompares : Obligations.CtEqCompares := by
  refine ⟨toNat_commandWord_AB (op := 0x2A) (by decide), ?_, fun _ _ _ => exec_ctEq_empty⟩
  intro ta tb s y z ha hb
  rw [exec_ctEq_full ha hb, if_congr quad_eq_iff rfl rfl]

end Sys2Proof.Machine
end

section
/-! The UTF-8 scan and the table of patterns (spec/42_chunk.md R198): the four tests of the scan are the rows of the
table by their length, no pattern begins with a shorter one, so the scan takes exactly the patterns of a text. -/

namespace Sys2Proof.Machine

/-- One whole byte pattern of the table (R198). -/
def Utf8Pattern (bytes : List Byte) : Prop :=
  ∃ row ∈ utf8Table, List.Forall₂ (fun range b => range.1 ≤ b.toNat ∧ b.toNat ≤ range.2) row bytes

theorem Utf8Text.of_pattern {bytes rest : List Byte} (h : Utf8Pattern bytes) (ht : Utf8Text rest) :
    Utf8Text (bytes ++ rest) :=
  have ⟨row, hr, hb⟩ := h
  .pattern row bytes rest hr hb ht

theorem inRange_iff {b : Byte} {lo hi : Nat} : inRange b lo hi = true ↔ lo ≤ b.toNat ∧ b.toNat ≤ hi := by
  simp only [inRange, Bool.and_eq_true, decide_eq_true_eq]

/-! ### The four tests of the scan are the rows of the table -/

theorem utf8Pattern_one_iff {b0 : Byte} : Utf8Pattern [b0] ↔ utf8One b0 = true := by
  simp [Utf8Pattern, utf8Table, utf8One, inRange_iff]

theorem utf8Pattern_two_iff {b0 b1 : Byte} : Utf8Pattern [b0, b1] ↔ utf8Two b0 b1 = true := by
  simp [Utf8Pattern, utf8Table, utf8Two, isTail, inRange_iff]

theorem utf8Pattern_three_iff {b0 b1 b2 : Byte} : Utf8Pattern [b0, b1, b2] ↔ utf8Three b0 b1 b2 = true := by
  simp only [Utf8Pattern, utf8Table, List.mem_cons, List.not_mem_nil, or_false, exists_eq_or_imp,
    List.forall₂_cons, List.forall₂_nil_left_iff, reduceCtorEq, and_false, List.cons_ne_self,
    List.forall₂_nil_right_iff, and_true, ↓existsAndEq, or_self, false_or, utf8Three, isTail, Bool.and_eq_true,
    Bool.or_eq_true, inRange_iff]
  omega

theorem utf8Pattern_four_iff {b0 b1 b2 b3 : Byte} :
    Utf8Pattern [b0, b1, b2, b3] ↔ utf8Four b0 b1 b2 b3 = true := by
  simp only [Utf8Pattern, utf8Table, List.mem_cons, List.not_mem_nil, or_false, exists_eq_or_imp,
    List.forall₂_cons, true_and, List.forall₂_nil_left_iff, reduceCtorEq, and_false, List.cons_ne_self,
    List.forall₂_nil_right_iff, and_true, ↓existsAndEq, false_or, utf8Four, isTail, Bool.and_eq_true,
    Bool.or_eq_true, inRange_iff]
  omega

/-- Every row of the table has one to four ranges. -/
theorem Utf8Pattern.length_bounds {bytes : List Byte} (h : Utf8Pattern bytes) :
    1 ≤ bytes.length ∧ bytes.length ≤ 4 := by
  obtain ⟨row, hr, hb⟩ := h
  have hrow : ∀ row ∈ utf8Table, 1 ≤ row.length ∧ row.length ≤ 4 := by decide
  exact hb.length_eq ▸ hrow row hr

/-! ### The first byte tells the length of a pattern -/

theorem le_of_utf8One {b0 : Byte} (h : utf8One b0 = true) : b0.toNat ≤ 0x7F := (inRange_iff.mp h).2

theorem bounds_of_utf8Two {b0 b1 : Byte} (h : utf8Two b0 b1 = true) : 0xC2 ≤ b0.toNat ∧ b0.toNat ≤ 0xDF := by
  simp only [utf8Two, Bool.and_eq_true, inRange_iff] at h
  exact h.1

theorem bounds_of_utf8Three {b0 b1 b2 : Byte} (h : utf8Three b0 b1 b2 = true) :
    0xE0 ≤ b0.toNat ∧ b0.toNat ≤ 0xEF := by
  simp only [utf8Three, Bool.and_eq_true, Bool.or_eq_true, inRange_iff] at h
  omega

theorem le_of_utf8Four {b0 b1 b2 b3 : Byte} (h : utf8Four b0 b1 b2 b3 = true) : 0xF0 ≤ b0.toNat := by
  simp only [utf8Four, Bool.and_eq_true, Bool.or_eq_true, inRange_iff] at h
  omega

theorem utf8One_eq_false {b0 : Byte} (h : 0x7F < b0.toNat) : utf8One b0 = false :=
  Bool.eq_false_iff.mpr fun h1 => by have := le_of_utf8One h1; omega

theorem utf8Two_eq_false {b0 b1 : Byte} (h : 0xDF < b0.toNat) : utf8Two b0 b1 = false :=
  Bool.eq_false_iff.mpr fun h2 => by have := bounds_of_utf8Two h2; omega

theorem utf8Three_eq_false {b0 b1 b2 : Byte} (h : 0xEF < b0.toNat) : utf8Three b0 b1 b2 = false :=
  Bool.eq_false_iff.mpr fun h3 => by have := bounds_of_utf8Three h3; omega

/-! ### The scan takes whole patterns -/

/-- Before a whole pattern the scan goes on after it: no shorter test accepts its first bytes. -/
theorem utf8Valid_pattern_append {bytes : List Byte} (h : Utf8Pattern bytes) (rest : List Byte) :
    utf8Valid (bytes ++ rest) = utf8Valid rest := by
  match bytes, h, h.length_bounds with
  | [], _, hl => exact absurd hl.1 (by decide)
  | [b0], h, _ => exact utf8Valid_of_one (utf8Pattern_one_iff.mp h)
  | [b0, b1], h, _ =>
    have h2 := utf8Pattern_two_iff.mp h
    have hb := bounds_of_utf8Two h2
    exact utf8Valid_of_two (utf8One_eq_false (by omega)) h2
  | [b0, b1, b2], h, _ =>
    have h3 := utf8Pattern_three_iff.mp h
    have hb := bounds_of_utf8Three h3
    exact utf8Valid_of_three (utf8One_eq_false (by omega)) (utf8Two_eq_false (by omega)) h3
  | [b0, b1, b2, b3], h, _ =>
    have h4 := utf8Pattern_four_iff.mp h
    have hb := le_of_utf8Four h4
    change utf8Valid (b0 :: b1 :: b2 :: b3 :: rest) = _
    rw [utf8Valid_of_four (utf8One_eq_false (by omega)) (utf8Two_eq_false (by omega)) (utf8Three_eq_false (by omega)),
      h4, Bool.true_and]
  | _ :: _ :: _ :: _ :: _ :: _, _, hl => exact absurd hl.2 (by simp)

theorem utf8Valid_of_utf8Text {s : List Byte} (h : Utf8Text s) : utf8Valid s = true := by
  induction h with
  | nil => exact utf8Valid_nil
  | pattern row bytes rest hr hb _ ih => rw [utf8Valid_pattern_append ⟨row, hr, hb⟩, ih]

/-- Where the scan goes on, the bytes it took are one pattern; where it stops short, nothing is left to show. -/
theorem utf8Text_of_utf8Valid {s : List Byte} (h : utf8Valid s = true) : Utf8Text s := by
  fun_induction utf8Valid s with
  | case1 => exact .nil
  | case2 b0 rest h1 ih => exact .of_pattern (utf8Pattern_one_iff.mpr h1) (ih h)
  | case4 b0 _ b1 rest h2 ih => exact .of_pattern (utf8Pattern_two_iff.mpr h2) (ih h)
  | case6 b0 _ b1 _ b2 rest h3 ih => exact .of_pattern (utf8Pattern_three_iff.mpr h3) (ih h)
  | case8 b0 _ b1 _ b2 _ b3 rest h4 ih => exact .of_pattern (utf8Pattern_four_iff.mpr h4) (ih h)
  | case3 | case5 | case7 | case9 => cases h

/-- R198: the scan accepts exactly the concatenations of patterns. -/
theorem utf8Valid_iff_utf8Text {s : List Byte} : utf8Valid s = true ↔ Utf8Text s :=
  ⟨utf8Text_of_utf8Valid, utf8Valid_of_utf8Text⟩

end Sys2Proof.Machine
end

section
/-! The Chunk unit (spec/42_chunk.md R181 to R196): one equation per command for what `exec` does, and the statements
O23 to O29 and O31. -/

namespace Sys2Proof.Machine

/-! ### `CH.NEW` (R181) -/

/-- R181: the four fields of the new slot. -/
theorem exec_chNew_of_le {cd ts : Index} {s : State} {y : Quad} (ht : s.readT ts = ⟨true, y⟩)
    (hn : s.ilen ≤ s.maxlen.toNat) :
    exec (.chNew cd ts) s = .next (answered 0 { s with
      c := s.c.set cd ⟨true, BitVec.ofNat 32 s.ilen, y, inputBytes s, chunkChecksum y (inputBytes s)⟩ }) := by
  rw [exec, execChNew, withType_full (by rw [ht]), if_neg hn.not_gt, respond_eq, State.writeC, ht]

theorem exec_chNew_of_gt {cd ts : Index} {s : State} (ht : (s.readT ts).valid = true)
    (hn : s.maxlen.toNat < s.ilen) :
    exec (.chNew cd ts) s = .next (failedWith 0x82 0 (encode (.chNew cd ts)) s) := by
  rw [exec, execChNew, withType_full ht, if_pos hn, faultOf_eq, Cause.code]

theorem exec_chNew_empty {cd ts : Index} {s : State} (ht : (s.readT ts).valid = false) :
    exec (.chNew cd ts) s = .next (failedWith 0x81 0 (encode (.chNew cd ts)) s) := by
  rw [exec, execChNew, withType_empty ht]

/-- R25: a payload within `MAXLEN` and its own checksum make a slot that meets all four invariants. -/
theorem slotInvariant_of_letters {maxlen : Word32} {y : Quad} {d : List Byte} (hd : d.length ≤ maxlen.toNat)
    (hy : y.letters = true) :
    SlotInvariant maxlen ⟨true, BitVec.ofNat 32 d.length, y, d, chunkChecksum y d⟩ where
  length_eq := toNat_ofNat_of_le hd
  crc_eq := rfl
  letters := hy
  length_le := (toNat_ofNat_of_le hd).trans_le hd

/-- Settles O23: the payload is `ILEN` bytes long, so the slot made of it meets R25 (`slotInvariant_of_letters`). -/
theorem chNewConstructs : Obligations.ChNewConstructs := by
  refine ⟨toNat_commandWord_AB (op := 0x30) (by decide), ?_, fun _ _ _ => exec_chNew_of_gt,
    fun _ _ _ => exec_chNew_empty⟩
  rintro cd ts s y _ _ ht hn rfl rfl
  have hlen : (inputBytes s).length = s.ilen := length_memRead s.ibuf 0 s.ilen
  refine ⟨exec_chNew_of_le ht hn, fun hy => ?_⟩
  have hslot := slotInvariant_of_letters (hlen.trans_le hn) hy
  rwa [hlen] at hslot

/-! ### `CH.PARSE` (R184) -/

/-- Four bytes that spell a read of four bytes are that read. -/
theorem eq_memReadQuad {q : Quad} {m : Memory} {a : Nat} (h : q.toList = memRead m a 4) : q = memReadQuad m a :=
  Quad.toList_injective (h.trans (toList_memReadQuad m a).symm)

/-- `ILEN < 8` fails before anything is read. -/
theorem exec_chParse_of_no_header {cd : Index} {s : State} (h : s.ilen < 8) :
    exec (.chParse cd) s = .next (failedWith 0x04 8 (zextNat s.ilen) s) := by
  have h8 : zextNat 8 = 8 := rfl
  simp only [exec, execChParse, if_pos h, raise_eq, Cause.code, h8]

section
variable {cd : Index} {s : State} {y : Quad} (hn : 8 ≤ s.ilen) (hy : y = memReadQuad s.ibuf 4)
include hn hy

theorem exec_chParse_of_not_letters (hly : ¬ y.letters = true) :
    exec (.chParse cd) s = .next (failedWith 0x01 0 (zext32 (be32 y)) s) := by
  simp only [exec, execChParse, if_neg hn.not_gt, ← hy, if_pos hly, raise_eq, Cause.code]

variable {l : Word32} (hl : l = be32 (memReadQuad s.ibuf 0)) (hly : y.letters = true)
include hl hly

theorem exec_chParse_of_cut (hs : s.ilen < 12 + l.toNat) :
    exec (.chParse cd) s = .next (failedWith 0x04 (zextNat (12 + l.toNat)) (zextNat s.ilen) s) := by
  simp only [exec, execChParse, if_neg hn.not_gt, ← hy, if_neg (not_not_intro hly), ← hl, if_pos hs, raise_eq,
    Cause.code]

variable {d : List Byte} {k : Word32} (hs : 12 + l.toNat ≤ s.ilen) (hd : d = memRead s.ibuf 8 l.toNat)
  (hk : k = be32 (memReadQuad s.ibuf (8 + l.toNat)))
include hs hd hk

theorem exec_chParse_of_mismatch (hc : chunkChecksum y d ≠ k) :
    exec (.chParse cd) s = .next (failedWith 0x02 (zext32 (chunkChecksum y d)) (zext32 k) s) := by
  simp only [exec, execChParse, if_neg hn.not_gt, ← hy, if_neg (not_not_intro hly), ← hl, if_neg hs.not_gt, ← hd,
    ← hk, if_pos hc, raise_eq, Cause.code]

/-- As many bytes are read as the length field says, so the last test of R184 passes. -/
theorem exec_chParse_of_match (hc : chunkChecksum y d = k) :
    exec (.chParse cd) s = .next (answered 0 { s with c := s.c.set cd ⟨true, l, y, d, k⟩ }) := by
  have hdl : d.length = l.toNat := hd ▸ length_memRead s.ibuf 8 l.toNat
  simp only [exec, execChParse, if_neg hn.not_gt, ← hy, if_neg (not_not_intro hly), ← hl, if_neg hs.not_gt, ← hd,
    ← hk, if_neg (not_not_intro hc), if_neg (not_not_intro hdl), respond_eq, State.writeC]
  rw [hc, hdl, BitVec.ofNat_toNat, BitVec.setWidth_eq]
end

/-- Settles O24: one equation per outcome, in the order of the tests. -/
theorem chParseOutcomes : Obligations.ChParseOutcomes := by
  refine ⟨toNat_commandWord_A (op := 0x31) (by decide), fun _ _ => exec_chParse_of_no_header, ?_⟩
  intro cd s q y l hn hq hl hy
  replace hl := eq_memReadQuad hq ▸ hl
  replace hy := eq_memReadQuad hy
  refine ⟨exec_chParse_of_not_letters hn hy, exec_chParse_of_cut hn hy hl, ?_⟩
  intro hly hs d p k hd hp hk
  replace hk := eq_memReadQuad hp ▸ hk
  exact ⟨exec_chParse_of_mismatch hn hy hl hly hs hd hk, exec_chParse_of_match hn hy hl hly hs hd hk⟩

/-! ### The producers (R186, R192, R194) -/

/-- The answer `o` in the state `s` delivers the `n` bytes `v`: `OBUF[0, n)` reads as `v`, every byte after it is kept,
`OLEN = n`, `ORP = 0`, response `n` (R30, R186, R192). -/
def Delivers (s : State) (v : List Byte) (n : Nat) (o : Result) : Prop :=
  ∃ m, o = .next (answered (zextNat n) { s with obuf := m, olen := n, orp := 0 }) ∧
    memRead m 0 n = v ∧ ∀ a, n ≤ a → m.read a = s.obuf.read a

/-- A sequence that fits the buffer, stored from offset 0 on, is delivered (R60). -/
theorem delivers_memWriteAll {s : State} {v : List Byte} {n : Nat} (hv : v.length = n) (hn : n ≤ s.bufferCapacity) :
    Delivers s v n (deliver (memWriteAll s.obuf 0 v) n s) := by
  refine ⟨memWriteAll s.obuf 0 v, deliver_eq hn, ?_, fun a ha => ?_⟩
  · rw [← hv, memRead_memWriteAll]
  · rw [read_memWriteAll, if_neg (by omega)]

/-- R186: the four stores are one store of the frame, which fits because `LENGTH ≤ MAXLEN`. -/
theorem delivers_storeFrame {s : State} {slot : Slot} (h : SlotInvariant s.maxlen slot) :
    Delivers s (frameBytes slot) (12 + slot.length.toNat)
      (deliver (storeFrame s.obuf slot) (12 + slot.length.toNat) s) := by
  have hfits : 12 + slot.length.toNat ≤ s.bufferCapacity := by
    rw [State.bufferCapacity, Nat.add_comm]
    exact Nat.add_le_add_right h.length_le 12
  rw [storeFrame_eq _ h.length_eq]
  exact delivers_memWriteAll (by rw [length_frameBytes, h.length_eq]) hfits

/-- R192, R194. -/
theorem delivers_storePayload {s : State} {slot : Slot} (h : SlotInvariant s.maxlen slot) :
    Delivers s slot.data slot.length.toNat (deliver (storePayload s.obuf slot) slot.length.toNat s) := by
  rw [storePayload_eq _ h.length_eq]
  exact delivers_memWriteAll h.length_eq.symm (Nat.le_add_right_of_le h.length_le)

theorem exec_chSer (cs : Index) (s : State) :
    exec (.chSer cs) s = withSlot (.chSer cs) cs s fun slot =>
      deliver (storeFrame s.obuf slot) (12 + slot.length.toNat) s := rfl

theorem exec_chData (cs : Index) (s : State) :
    exec (.chData cs) s = withSlot (.chData cs) cs s fun slot =>
      deliver (storePayload s.obuf slot) slot.length.toNat s := rfl

/-- R194: on a valid payload `CH.DATASTR` is `CH.DATA`. -/
theorem exec_chDatastr_of_valid {cs : Index} {s : State} (h : (s.readC cs).valid = true)
    (hu : utf8Valid (s.readC cs).data = true) : exec (.chDatastr cs) s = exec (.chData cs) s := by
  rw [exec_chData, exec, execChDatastr, withSlot_full h, withSlot_full h, if_neg (not_not_intro hu)]

theorem exec_chDatastr_of_invalid {cs : Index} {s : State} (h : (s.readC cs).valid = true)
    (hu : ¬ utf8Valid (s.readC cs).data = true) :
    exec (.chDatastr cs) s = .next (failedWith 0x05 0
      (zextNat (longestValidPrefix (s.readC cs).data (s.readC cs).length.toNat)) s) := by
  rw [exec, execChDatastr, withSlot_full h, if_pos hu, raise_eq, Cause.code]

theorem exec_chDatastr_empty {cs : Index} {s : State} (h : (s.readC cs).valid = false) :
    exec (.chDatastr cs) s = .next (failedWith 0x81 0 (encode (.chDatastr cs)) s) := by
  rw [exec, execChDatastr, withSlot_empty h]

/-- Settles O25: a full slot that meets R25 is delivered as its frame (`delivers_storeFrame`). -/
theorem chSerWritesFrame : Obligations.ChSerWritesFrame := by
  refine ⟨toNat_commandWord_A (op := 0x32) (by decide), ?_, fun cs s h => (exec_chSer cs s).trans (withSlot_empty h)⟩
  rintro cs s _ hv hslot rfl
  rw [exec_chSer, withSlot_full hv]
  exact delivers_storeFrame hslot

/-- Settles O28: a full slot that meets R25 is delivered as its payload (`delivers_storePayload`). -/
theorem chDataCopiesPayload : Obligations.ChDataCopiesPayload := by
  refine ⟨toNat_commandWord_A (op := 0x36) (by decide), ?_, fun cs s h => (exec_chData cs s).trans (withSlot_empty h)⟩
  rintro cs s _ hv hslot rfl
  rw [exec_chData, withSlot_full hv]
  exact delivers_storePayload hslot

/-- Settles O29: the scan decides the grammar (`utf8Valid_iff_utf8Text`), so a text is delivered as by `CH.DATA` and any
other payload fails with `longestValidPrefix_spec`. -/
theorem chDatastrChecksPayload : Obligations.ChDatastrChecksPayload := by
  refine ⟨toNat_commandWord_A (op := 0x37) (by decide), ?_, ?_, fun _ _ => exec_chDatastr_empty⟩
  · rintro cs s _ hv hslot rfl hu
    rw [exec_chDatastr_of_valid hv (utf8Valid_iff_utf8Text.mpr hu), exec_chData, withSlot_full hv]
    exact delivers_storePayload hslot
  · intro cs s hv hu
    have hspec := longestValidPrefix_spec (s.readC cs).data (s.readC cs).length.toNat
    simp only [utf8Valid_iff_utf8Text] at hspec
    exact ⟨_, exec_chDatastr_of_invalid hv (mt utf8Valid_iff_utf8Text.mp hu), hspec⟩

/-! ### The queries of one slot (R188, R189, R195) -/

/-- R188. -/
theorem exec_chLen (cs : Index) (s : State) :
    exec (.chLen cs) s = querySlot (.chLen cs) cs (fun slot => zext32 slot.length) s := rfl

/-- R189. -/
theorem exec_chOlen (cs : Index) (s : State) :
    exec (.chOlen cs) s = querySlot (.chOlen cs) cs (fun slot => zextNat (slot.length.toNat + 12)) s := rfl

/-- R195. -/
theorem exec_chCrc (cs : Index) (s : State) :
    exec (.chCrc cs) s = querySlot (.chCrc cs) cs (fun slot => zext32 slot.crc) s := rfl

/-- R189: a `u32` plus 12 fits the response value. -/
theorem toNat_zextNat_length_add (l : Word32) : (zextNat (l.toNat + 12)).toNat = l.toNat + 12 :=
  toNat_zextNat (by omega)

/-- Settles O26: the three commands are queries of one slot; the overall length does not wrap
(`toNat_zextNat_length_add`). -/
theorem chLenOlenCrcAnswer : Obligations.ChLenOlenCrcAnswer := by
  refine ⟨fun cs => ⟨toNat_commandWord_A (op := 0x33) (by decide) cs, toNat_commandWord_A (op := 0x34) (by decide) cs,
    toNat_commandWord_A (op := 0x38) (by decide) cs⟩, ?_, ?_⟩
  · intro cs s h
    rw [exec_chLen, exec_chOlen, exec_chCrc]
    exact ⟨querySlot_full h, ⟨_, querySlot_full h, toNat_zextNat_length_add _⟩, querySlot_full h⟩
  · intro cs s h
    rw [exec_chLen, exec_chOlen, exec_chCrc]
    exact ⟨querySlot_empty h, querySlot_empty h, querySlot_empty h⟩

/-! ### `CH.TYPE` (R190) -/

theorem exec_chType (td cs : Index) (s : State) :
    exec (.chType td cs) s = withSlot (.chType td cs) cs s fun slot =>
      .next (answered (zext32 (be32 slot.type)) { s with t := s.t.set td ⟨true, slot.type⟩ }) := rfl

/-- Settles O27: the two cases of the source slot. -/
theorem chTypeCopies : Obligations.ChTypeCopies :=
  ⟨toNat_commandWord_AB (op := 0x35) (by decide), fun td cs s h => (exec_chType td cs s).trans (withSlot_full h),
    fun td cs s h => (exec_chType td cs s).trans (withSlot_empty h)⟩

/-! ### The comparison (R196) -/

theorem exec_chEq_full {ca cb : Index} {s : State} {x y : Slot} (hx : s.readC ca = x) (hy : s.readC cb = y)
    (hxv : x.valid = true) (hyv : y.valid = true) :
    exec (.chEq ca cb) s = .next (answered
      (if x.length = y.length ∧ x.type = y.type ∧ x.data = y.data ∧ x.crc = y.crc then 1 else 0) s) := by
  subst hx hy
  rw [exec, execChEq, withSlot_full hxv, withSlot_full hyv, respond_eq, ← boolValue_decide]
  simp only [Bool.decide_and, Bool.and_assoc]

/-- R196, R246: the first source is tested first, and both tests fail alike. -/
theorem exec_chEq_empty {ca cb : Index} {s : State}
    (h : (s.readC ca).valid = false ∨ (s.readC cb).valid = false) :
    exec (.chEq ca cb) s = .next (failedWith 0x81 0 (encode (.chEq ca cb)) s) := by
  rw [exec, execChEq]
  cases ha : (s.readC ca).valid with
  | false => exact withSlot_empty ha
  | true =>
    have hb : (s.readC cb).valid = false := h.resolve_left (by simp [ha])
    rw [withSlot_full ha, withSlot_empty hb]

/-- Settles O31: the four tests one by one are the one test of all four fields. -/
theorem chEqCompares : Obligations.ChEqCompares :=
  ⟨toNat_commandWord_AB (op := 0x39) (by decide), fun _ _ _ _ _ => exec_chEq_full, fun _ _ _ => exec_chEq_empty⟩

end Sys2Proof.Machine
end

section
/-! The buffers and the system registers (spec/43_buffer_system.md R223 to R227): one equation per outcome of each
command for what `exec` does, the bits of `VALID` (spec/10_state.md R34), and the statements O35 to O39. -/

namespace Sys2Proof.Machine

/-! ### The input buffer (R223, R224) -/

/-- R223. -/
@[simp] theorem exec_ibClr (s : State) : exec .ibClr s = .next (answered 0 { s with ilen := 0 }) :=
  respond_eq 0 { s with ilen := 0 }

/-- R60, R75: `MemWrite` of one byte. -/
theorem memWrite_singleton (m : Memory) (a : Nat) (b : Byte) : memWrite m a 1 [b] = m.write a b := rfl

/-- R224: the store of one byte. -/
theorem exec_ibPut_of_lt {b : Byte} {s : State} (h : s.ilen < s.bufferCapacity) :
    exec (.ibPut b) s = .next (answered (zextNat (s.ilen + 1))
      { s with ibuf := s.ibuf.write s.ilen b, ilen := s.ilen + 1 }) := by
  rw [exec, execIbPut, if_neg h.ne, if_neg h.not_gt, respond_eq, memWrite_singleton]

theorem exec_ibPut_of_full {b : Byte} {s : State} (h : s.ilen = s.bufferCapacity) :
    exec (.ibPut b) s = .next (failedWith 0x82 0 (encode (.ibPut b)) s) := by
  rw [exec, execIbPut, if_pos h, faultOf_eq, Cause.code]

/-- Settles O35: the word is evaluated, the next state is `exec_ibClr`. -/
theorem ibClrEmptiesBuffer : Obligations.IbClrEmptiesBuffer :=
  ⟨by decide, exec_ibClr⟩

/-- Settles O36: with room left the byte is written at `ILEN`, and `Memory.read_write` says what every offset then reads
as. -/
theorem ibPutAppendsByte : Obligations.IbPutAppendsByte := by
  refine ⟨toNat_commandWord_byte (op := 0x41) (by decide), fun b s h => ?_, fun _ _ => exec_ibPut_of_full⟩
  refine ⟨s.ibuf.write s.ilen b, exec_ibPut_of_lt h, ?_, fun a ha => ?_⟩
  · rw [Memory.read_write, if_pos rfl]
  · rw [Memory.read_write, if_neg ha]

/-! ### The output buffer (R225, R226) -/

/-- R225. -/
theorem exec_obRd_of_lt {s : State} (h : s.orp < s.olen) :
    exec .obRd s = .next (answered (zext8 (s.obuf.read s.orp)) { s with orp := s.orp + 1 }) := by
  rw [exec, execObRd, if_neg h.not_ge, respond_eq]

/-- R225, R248: an empty buffer, and one read to its end. -/
theorem exec_obRd_of_le {s : State} (h : s.olen ≤ s.orp) :
    exec .obRd s = .next (failedWith 0x83 0 (encode .obRd) s) := by
  rw [exec, execObRd, if_pos h, faultOf_eq, Cause.code]

/-- R226. -/
@[simp] theorem exec_obRew (s : State) : exec .obRew s = .next (answered (zextNat s.olen) { s with orp := 0 }) :=
  respond_eq (zextNat s.olen) { s with orp := 0 }

/-- Settles O37: the two cases of the read pointer; the recorded word is the word of the command. -/
theorem obRdReadsNextByte : Obligations.ObRdReadsNextByte := by
  have hword : encode .obRd = 0x4200000000000000 := by decide
  exact ⟨hword, fun _ => exec_obRd_of_lt, fun _ h => hword ▸ exec_obRd_of_le h⟩

/-- Settles O38: the word is evaluated, the next state is `exec_obRew`. -/
theorem obRewRewinds : Obligations.ObRewRewinds :=
  ⟨by decide, exec_obRew⟩

/-! ### The bits of `VALID` (R34) -/

/-- Four bits as a number, the first one lowest. -/
theorem ofBits_four (f : Index → Bool) :
    Nat.ofBits f = (f 0).toNat + 2 * (f 1).toNat + 4 * (f 2).toNat + 8 * (f 3).toNat := by
  revert f
  decide

/-- `VALID` is two groups of four bits, the slots' eight places above the type registers'. -/
theorem validWord_eq_ofBits (s : State) :
    validWord s
      = zextNat (2 ^ 8 * Nat.ofBits (fun k => (s.readC k).valid) + Nat.ofBits fun k => (s.readT k).valid) := by
  simp only [validWord, ofBits_four]
  congr 1
  omega

/-- A bit of `VALID` is a bit of the type registers' group below place 8, of the slots' group from there on. -/
theorem getLsbD_validWord (s : State) (n : Nat) :
    (validWord s).getLsbD n = (decide (n < 64) &&
      if n < 8 then (Nat.ofBits fun k => (s.readT k).valid).testBit n
      else (Nat.ofBits fun k => (s.readC k).valid).testBit (n - 8)) := by
  have hlow : Nat.ofBits (fun k => (s.readT k).valid) < 2 ^ 8 :=
    (Nat.ofBits_lt_two_pow _).trans (by decide)
  rw [validWord_eq_ofBits, zextNat, BitVec.getLsbD_ofNat, Nat.testBit_two_pow_mul_add _ hlow]

theorem getLsbD_validWord_type (s : State) (k : Index) : (validWord s).getLsbD k.val = (s.readT k).valid := by
  rw [getLsbD_validWord, decide_eq_true (by omega), Bool.true_and, if_pos (by omega), Nat.testBit_ofBits_lt _ _ k.isLt]

theorem getLsbD_validWord_slot (s : State) (k : Index) : (validWord s).getLsbD (8 + k.val) = (s.readC k).valid := by
  rw [getLsbD_validWord, decide_eq_true (by omega), Bool.true_and, if_neg (by omega), Nat.add_sub_cancel_left,
    Nat.testBit_ofBits_lt _ _ k.isLt]

theorem getLsbD_validWord_unused (s : State) {n : Nat} (h : (4 ≤ n ∧ n < 8) ∨ 12 ≤ n) :
    (validWord s).getLsbD n = false := by
  rw [getLsbD_validWord]
  obtain ⟨h4, h8⟩ | h12 := h
  · rw [if_pos h8, Nat.testBit_ofBits_ge _ _ h4, Bool.and_false]
  · rw [if_neg (by omega), Nat.testBit_ofBits_ge _ _ (by omega), Bool.and_false]

/-! ### `RD` (R227) -/

/-- R31: every CSR number not in the table is undefined. -/
theorem csrValue_of_gt (s : State) {n : Byte} (h : 8 < n.toNat) : csrValue s n = none := by
  unfold csrValue
  split
  case h_10 => rfl
  all_goals omega

/-- R227: not even the status registers are written. -/
theorem exec_rd_of_some {n : Byte} {s : State} {v : Word64} (h : csrValue s n = some v) :
    exec (.rd n) s = .next { s with responses := ⟨0, v⟩ :: s.responses } := by
  simp only [exec, execRd, h, respondOnly]

theorem exec_rd_of_none {n : Byte} {s : State} (h : csrValue s n = none) :
    exec (.rd n) s = .next (failedWith 0x80 0 (encode (.rd n)) s) := by
  simp only [exec, execRd, h, faultOf_eq, Cause.code]

/-- Settles O39: each number of the table has the value `csrValue` gives it, `VALID` by its bits, and any number above 8
has none. -/
theorem rdReadsRegisters : Obligations.RdReadsRegisters := by
  refine ⟨toNat_commandWord_byte (op := 0x48) (by decide), fun s => ?_,
    fun s _ h => exec_rd_of_none (csrValue_of_gt s h)⟩
  refine ⟨exec_rd_of_some rfl, exec_rd_of_some rfl, exec_rd_of_some rfl, exec_rd_of_some rfl, exec_rd_of_some rfl,
    exec_rd_of_some rfl, exec_rd_of_some rfl, ?_, exec_rd_of_some rfl⟩
  exact ⟨validWord s, exec_rd_of_some rfl, getLsbD_validWord_type s, getLsbD_validWord_slot s,
    fun _ => getLsbD_validWord_unused s⟩

end Sys2Proof.Machine
end

section
/-! Words that are no command (spec/30_encoding.md R106): a word that decodes matches its row of the opcode table. -/

namespace Sys2Proof

/-- The word is a command of some row of the opcode table, `w AND mask = match` (R105). -/
abbrev MatchesRow (w : Word64) : Prop := ∃ row ∈ opcodeTable, w &&& row.mask = row.pattern

/-- A word that meets the mask of an opcode's row matches that row. -/
theorem matchesRow_of_and {w mask : Word64} {op : Nat} (h : w &&& mask = patternOf op)
    (hrow : ∃ row ∈ opcodeTable, row.mask = mask ∧ row.pattern = patternOf op) : MatchesRow w :=
  have ⟨row, hmem, hmask, hpattern⟩ := hrow
  ⟨row, hmem, by rw [hmask, hpattern, h]⟩

/-- R105: one row per opcode, with the mask of the opcode's format; the cases stand in the order of the table. -/
theorem matchesRow_of_decode {w : Word64} {i : Instr} (h : decode w = .ok i) : MatchesRow w := by
  rw [decode, decodeFields] at h
  split at h
  case h_1 hop | h_3 hop | h_4 hop | h_26 hop | h_28 hop | h_29 hop =>
    exact matchesRow_of_and ((and_maskN (by decide)).2 ⟨hop, (formatN_ok.1 h).2⟩) (by decide)
  case h_2 hop | h_27 hop | h_30 hop =>
    exact matchesRow_of_and ((and_maskByte (by decide)).2 ⟨hop, (formatByte_ok.1 h).2⟩) (by decide)
  case h_5 hop =>
    exact matchesRow_of_and ((and_maskAI32 (by decide)).2 ⟨hop, (formatAI32_ok.1 h).2⟩) (by decide)
  case h_8 hop =>
    exact matchesRow_of_and ((and_maskAI2 (by decide)).2 ⟨hop, (formatAI2_ok.1 h).2⟩) (by decide)
  case h_15 hop | h_16 hop | h_21 hop | h_25 hop =>
    exact matchesRow_of_and ((and_maskAB (by decide)).2 ⟨hop, (formatAB_ok.1 h).2⟩) (by decide)
  case h_31 => cases h
  -- Every other opcode of the table has format A.
  all_goals
    rename_i hop
    exact matchesRow_of_and ((and_maskA (by decide)).2 ⟨hop, (formatA_ok.1 h).2⟩) (by decide)

end Sys2Proof
end

section
/-! The error model (spec/60_exceptions.md R244 to R246): illegal words, the code a command answers, empty sources, and
the statements O6, O42 and O44. -/

namespace Sys2Proof.Machine

/-! ### Illegal commands (R245) -/

/-- R245: a word that decodes to no command faults before any rule of a command. -/
theorem step_of_decode_error {s : State} {w : Word64} {rest : List HostAction} {e : Illegal}
    (hp : s.pending = .command w :: rest) (hd : decode w = .error e) :
    step s = .next (failedWith 0x80 0 w { s with pending := rest }) := by
  simp only [step, hp, hd, raiseFault_eq, Cause.code]

/-- Settles O6: a word that decodes matches a row (`matchesRow_of_decode`), and no CSR has a number above 8. -/
theorem illegalWordFaults : Obligations.IllegalWordFaults := by
  refine ⟨fun s w rest hp hno => ?_, fun s n h => exec_rd_of_none (csrValue_of_gt s h)⟩
  cases hd : decode w with
  | error e => exact step_of_decode_error hp hd
  | ok i =>
    obtain ⟨row, hmem, hrow⟩ := matchesRow_of_decode hd
    exact absurd hrow (hno row hmem)

/-! ### The code a command answers (R108) -/

/-- The code of the latest response of a state that goes on. -/
def responseCode : Result → Option Byte
  | .next t => t.responses.head?.map Response.code
  | .fault _ | .refused _ => none

theorem responseCode_of_answer {o : Result} {s t : State} {r : Response} (h : o = .next t)
    (hr : t.responses = r :: s.responses) : responseCode o = some r.code := by
  rw [h, responseCode, hr, List.head?_cons, Option.map_some]

/-- A command that answers a code other than 0 has failed, with that code (R243, R244). -/
theorem exec_failed_of_responseCode {i : Instr} {s : State} {code : Byte} (h : responseCode (exec i s) = some code)
    (hc : code ≠ 0) :
    ∃ (cause : Cause) (exp act : Word64), cause.code = code ∧
      exec i s = .next (failedWith code exp act s) ∧ (cause.isFault = true → exp = 0 ∧ act = encode i) := by
  cases he : exec i s with
  | next t =>
    rw [he] at h
    cases exec_cases he with
    | success v s' => exact absurd (Option.some.inj h).symm hc
    | readsCsr n v => exact absurd (Option.some.inj h).symm hc
    | failure cause exp act hf =>
      obtain rfl : cause.code = code := Option.some.inj h
      exact ⟨cause, exp, act, rfl, rfl, hf⟩
  | fault | refused => rw [he] at h; cases h

/-- Settles O44: a command that answers a code other than 0 has failed (`exec_failed_of_responseCode`), and bit 7 of the
code marks the faults. -/
theorem failureWritesOnlyStatus : Obligations.FailureWritesOnlyStatus := by
  intro i s t r h hr hc
  obtain ⟨cause, exp, act, hcode, he, hf⟩ := exec_failed_of_responseCode (responseCode_of_answer h hr) hc
  obtain rfl : t = failedWith r.code exp act s := Host.Outcome.next.inj (h.symm.trans he)
  refine ⟨rfl, fun hbit => hf ?_⟩
  rwa [← code_getLsbD_seven, hcode]

/-! ### Empty sources (R246)

The one cause with code `0x81` is `EmptyOperand`, and only the two operand forms raise it. -/

/-- The command answers `EmptyOperand`. -/
def FaultsEmpty (o : Result) : Prop := responseCode o = some 0x81

theorem eq_emptyOperand_of_code {cause : Cause} (h : cause.code = 0x81) : cause = .emptyOperand := by
  revert h
  cases cause <;> decide

@[simp] theorem not_faultsEmpty_answered (v : Word64) (s : State) : ¬ FaultsEmpty (.next (answered v s)) :=
  show some (0 : Byte) ≠ some 0x81 by decide

@[simp] theorem not_faultsEmpty_respond (v : Word64) (s : State) : ¬ FaultsEmpty (respond v s) :=
  not_faultsEmpty_answered v s

@[simp] theorem not_faultsEmpty_respondOnly (v : Word64) (s : State) : ¬ FaultsEmpty (respondOnly v s) :=
  show some (0 : Byte) ≠ some 0x81 by decide

@[simp] theorem not_faultsEmpty_fault (r : Fault) : ¬ FaultsEmpty (.fault r) := nofun

@[simp] theorem faultsEmpty_raise {cause : Cause} {exp act : Word64} {s : State} :
    FaultsEmpty (raise cause exp act s) ↔ cause = .emptyOperand :=
  ⟨fun h => eq_emptyOperand_of_code (Option.some.inj h), fun h => congrArg (some ∘ Cause.code) h⟩

@[simp] theorem faultsEmpty_faultOf {i : Instr} {cause : Cause} {s : State} :
    FaultsEmpty (faultOf i cause s) ↔ cause = .emptyOperand := faultsEmpty_raise

@[simp] theorem faultsEmpty_ite {c : Prop} [Decidable c] {a b : Result} :
    FaultsEmpty (if c then a else b) ↔ if c then FaultsEmpty a else FaultsEmpty b := by
  split <;> rfl

@[simp] theorem not_faultsEmpty_deliver (m : Memory) (n : Nat) (s : State) : ¬ FaultsEmpty (deliver m n s) := by
  simp [deliver]

@[simp] theorem not_faultsEmpty_constructType (td : Index) (y : Quad) (s : State) :
    ¬ FaultsEmpty (constructType td y s) := by
  simp [constructType]

@[simp] theorem faultsEmpty_withType {i : Instr} {ts : Index} {s : State} {go : Quad → Result} :
    FaultsEmpty (withType i ts s go) ↔ (s.readT ts).valid = false ∨ FaultsEmpty (go (s.readT ts).bytes) := by
  cases hv : (s.readT ts).valid <;> simp [withType, hv]

@[simp] theorem faultsEmpty_withSlot {i : Instr} {cs : Index} {s : State} {go : Slot → Result} :
    FaultsEmpty (withSlot i cs s go) ↔ (s.readC cs).valid = false ∨ FaultsEmpty (go (s.readC cs)) := by
  cases hv : (s.readC cs).valid <;> simp [withSlot, hv]

@[simp] theorem faultsEmpty_queryType {i : Instr} {ts : Index} {answer : Quad → Word64} {s : State} :
    FaultsEmpty (queryType i ts answer s) ↔ (s.readT ts).valid = false := by
  simp [queryType]

@[simp] theorem faultsEmpty_querySlot {i : Instr} {cs : Index} {answer : Slot → Word64} {s : State} :
    FaultsEmpty (querySlot i cs answer s) ↔ (s.readC cs).valid = false := by
  simp [querySlot]

/-- R246: a command passes each of its sources through an operand form and raises `EmptyOperand` nowhere else. -/
theorem faultsEmpty_exec_iff {i : Instr} {s : State} : FaultsEmpty (exec i s) ↔ emptySource i s := by
  rw [emptySource]
  cases i with
  -- Commands without a source.
  | crcInit | crcUpd | ibClr | obRew => simp [typeSources, slotSources]
  | crcUpdb | crcFin => simp [exec, execCrcUpdb, execCrcFin, typeSources, slotSources]
  | ctFrombytes | ctFromtext => simp [exec, execCtFrombytes, execCtFromtext, typeSources, slotSources]
  | chParse => simp [exec, execChParse, typeSources, slotSources]
  | ibPut | obRd => simp [exec, execIbPut, execObRd, typeSources, slotSources]
  | rd n =>
    rw [exec, execRd]
    split <;> simp [typeSources, slotSources]
  -- Commands with type registers as sources.
  | ctBytes | ctByte | ctText | ctIsvalid | ctIscrit | ctIspub | ctIsrsv | ctIssafe =>
    simp [exec_ctBytes, exec_ctByte, exec_ctText, exec_ctIsvalid, exec_ctIscrit, exec_ctIspub, exec_ctIsrsv,
      exec_ctIssafe, typeSources, slotSources]
  | ctEq | chNew => simp [exec, execCtEq, execChNew, typeSources, slotSources]
  -- Commands with slots as sources.
  | chLen | chOlen | chCrc => simp [exec_chLen, exec_chOlen, exec_chCrc, typeSources, slotSources]
  | chSer | chData | chType => simp [exec_chSer, exec_chData, exec_chType, typeSources, slotSources]
  | chDatastr | chEq => simp [exec, execChDatastr, execChEq, typeSources, slotSources]

/-- Settles O42: a command answers `0x81` exactly when a source is empty (`faultsEmpty_exec_iff`), and a fault with that
code is `failedWith` its word (`exec_failed_of_responseCode`). -/
theorem emptySourceFaults : Obligations.EmptySourceFaults := by
  refine ⟨fun i s h => ?_, fun i s t r h hr hc => ?_⟩
  · obtain ⟨cause, exp, act, hcode, he, hf⟩ := exec_failed_of_responseCode (faultsEmpty_exec_iff.mpr h) (by decide)
    obtain rfl := eq_emptyOperand_of_code hcode
    obtain ⟨rfl, rfl⟩ := hf rfl
    exact he
  · rw [← faultsEmpty_exec_iff, FaultsEmpty, responseCode_of_answer h hr, hc]

end Sys2Proof.Machine
end

section
/-! The reset event (spec/70_reset_and_hazards.md R280): the step that takes it, what no command word clears, and the
statement O7. -/

namespace Sys2Proof.Machine

/-! ### The step by the host's next action (R6, R280) -/

theorem step_of_reset {s : State} {rest : List HostAction} (hp : s.pending = .reset :: rest) :
    step s = .next (takeReset { s with pending := rest }) := by
  simp only [step, hp]

theorem step_of_decode_ok {s : State} {w : Word64} {rest : List HostAction} {i : Instr}
    (hp : s.pending = .command w :: rest) (hd : decode w = .ok i) : step s = exec i { s with pending := rest } := by
  simp only [step, hp, hd]

/-! ### What only a reset clears -/

/-- From `s` to `t` no valid bit is cleared, and neither is the sticky fault bit (R280). -/
structure ClearsNothing (s t : State) : Prop where
  types : ∀ k, (s.readT k).valid = true → (t.readT k).valid = true
  slots : ∀ k, (s.readC k).valid = true → (t.readC k).valid = true
  flt : s.flt = true → t.flt = true

/-- A failure writes no register and no slot, and can only set `FLT` (R244). -/
theorem clearsNothing_failedWith (code : Byte) (exp act : Word64) (s : State) :
    ClearsNothing s (failedWith code exp act s) where
  types _ h := h
  slots _ h := h
  flt h := by rw [failedWith_flt, h, Bool.true_or]

/-- A success leaves `FLT` as it stands (R243) and fills the register or slot it constructs into (R27). -/
theorem clearsNothing_answered {i : Instr} {s s' : State} (e : Effect i s s') (v : Word64) :
    ClearsNothing s (answered v s') where
  types _ := e.readT_valid
  slots _ := e.readC_valid
  flt h := by
    obtain ⟨-, hflt, -⟩ := e.keeps_status
    rw [answered_flt, hflt, h]

theorem clearsNothing_exec {i : Instr} {s t : State} (h : exec i s = .next t) : ClearsNothing s t := by
  cases exec_cases h with
  | success v _ _ e => exact clearsNothing_answered e v
  | readsCsr => exact ⟨fun _ => id, fun _ => id, id⟩
  | failure cause exp act => exact clearsNothing_failedWith cause.code exp act s

/-- A word that is no command fails as a command can, so the decoder's verdict does not matter here. -/
theorem clearsNothing_step {s t : State} {w : Word64} {rest : List HostAction}
    (hp : s.pending = .command w :: rest) (h : step s = .next t) :
    ClearsNothing { s with pending := rest } t := by
  cases hd : decode w with
  | ok i => exact clearsNothing_exec ((step_of_decode_ok hp hd).symm.trans h)
  | error e =>
    obtain rfl := Host.Outcome.next.inj ((step_of_decode_error hp hd).symm.trans h)
    exact clearsNothing_failedWith 0x80 0 w { s with pending := rest }

/-- Settles O7: the reset step is `takeReset`, whose fields are the reset values, and a step that takes a command word
clears nothing (`clearsNothing_step`). -/
theorem resetEventAndOnlyItClears : Obligations.ResetEventAndOnlyItClears := by
  refine ⟨fun s rest hp => ?_, fun s t w rest hp h => ?_⟩
  · refine ⟨_, step_of_reset hp, fun k => ?_, fun k => ?_, rfl, rfl, rfl, rfl, rfl, rfl, rfl, rfl, rfl⟩
    · rw [readT_takeReset, TypeReg.empty]
    · rw [readC_takeReset, Slot.empty]
  · obtain ⟨htypes, hslots, hflt⟩ := clearsNothing_step hp h
    exact ⟨htypes, hslots, hflt⟩

end Sys2Proof.Machine
end

section
/-! The two directions of the code (spec/30_encoding.md R100 to R106): per format, the word of a command reads back as
its operands, and a word the format accepts is the word of those operands; then the statements O1 to O4. -/

namespace Sys2Proof

/-- Opcode `op` is read in the format `format`, whatever the other fields hold (R105). -/
abbrev ReadAs (op : Nat) (format : Fields → Except Illegal Instr) : Prop :=
  ∀ ra rb z imm, decodeFields ⟨op, ra, rb, z, imm⟩ = format ⟨op, ra, rb, z, imm⟩

/-! ### From the operands to the word and back (R101 to R104) -/

/-- A word built from fields that fit is read from those fields. -/
theorem decode_commandWord {op ra rb imm : Nat} (ho : op < 256) (ha : ra < 16) (hb : rb < 16) (hi : imm < 2 ^ 32) :
    decode (commandWord op ra rb imm) = decodeFields ⟨op, ra, rb, 0, imm⟩ := by
  rw [decode, fieldsOf_commandWord ho ha hb hi]

theorem decode_wordN {op : Nat} {i : Instr} (ho : op < 256) (hread : ReadAs op (formatN · i)) :
    decode (commandWord op 0 0 0) = .ok i := by
  rw [decode_commandWord ho (by decide) (by decide) (by decide), hread, formatN_ok]
  exact ⟨rfl, rfl, rfl, rfl, rfl⟩

theorem decode_wordByte {op : Nat} {k : Byte → Instr} (ho : op < 256) (hread : ReadAs op (formatByte · k)) (b : Byte) :
    decode (commandWord op 0 0 b.toNat) = .ok (k b) := by
  rw [decode_commandWord ho (by decide) (by decide) (by omega), hread, formatByte_ok]
  exact ⟨by simp, rfl, rfl, rfl, b.isLt⟩

theorem decode_wordA {op : Nat} {k : Index → Instr} (ho : op < 256) (hread : ReadAs op (formatA · k)) (a : Index) :
    decode (commandWord op a.val 0 0) = .ok (k a) := by
  rw [decode_commandWord ho (by omega) (by decide) (by decide), hread, formatA_ok]
  exact ⟨by rw [Fin.ofNat_val_eq_self], a.isLt, rfl, rfl, rfl⟩

theorem decode_wordAI2 {op : Nat} {k : Index → Index → Instr} (ho : op < 256) (hread : ReadAs op (formatAI2 · k))
    (a b : Index) : decode (commandWord op a.val 0 b.val) = .ok (k a b) := by
  rw [decode_commandWord ho (by omega) (by decide) (by omega), hread, formatAI2_ok]
  exact ⟨by rw [Fin.ofNat_val_eq_self, Fin.ofNat_val_eq_self], a.isLt, rfl, rfl, b.isLt⟩

theorem decode_wordAI32 {op : Nat} {k : Index → Word32 → Instr} (ho : op < 256) (hread : ReadAs op (formatAI32 · k))
    (a : Index) (v : Word32) : decode (commandWord op a.val 0 v.toNat) = .ok (k a v) := by
  rw [decode_commandWord ho (by omega) (by decide) v.isLt, hread, formatAI32_ok]
  exact ⟨by rw [Fin.ofNat_val_eq_self, BitVec.ofNat_toNat, BitVec.setWidth_eq], a.isLt, rfl, rfl⟩

theorem decode_wordAB {op : Nat} {k : Index → Index → Instr} (ho : op < 256) (hread : ReadAs op (formatAB · k))
    (a b : Index) : decode (commandWord op a.val b.val 0) = .ok (k a b) := by
  rw [decode_commandWord ho (by omega) (by omega) (by decide), hread, formatAB_ok]
  exact ⟨by rw [Fin.ofNat_val_eq_self, Fin.ofNat_val_eq_self], a.isLt, b.isLt, rfl, rfl⟩

/-- R100 to R105: one lemma per format, the opcode of each command being read in its own. -/
theorem decode_encode (i : Instr) : decode (encode i) = .ok i := by
  cases i with
  | crcInit | crcUpdb | crcFin | ibClr | obRd | obRew => exact decode_wordN (by decide) fun _ _ _ _ => rfl
  | crcUpd b | ibPut b | rd b => exact decode_wordByte (by decide) (fun _ _ _ _ => rfl) b
  | ctFrombytes td imm => exact decode_wordAI32 (by decide) (fun _ _ _ _ => rfl) td imm
  | ctByte ts k => exact decode_wordAI2 (by decide) (fun _ _ _ _ => rfl) ts k
  | ctEq a b | chNew a b | chType a b | chEq a b => exact decode_wordAB (by decide) (fun _ _ _ _ => rfl) a b
  | ctFromtext a | ctBytes a | ctText a | ctIsvalid a | ctIscrit a | ctIspub a | ctIsrsv a | ctIssafe a | chParse a
  | chSer a | chLen a | chOlen a | chData a | chDatastr a | chCrc a =>
    exact decode_wordA (by decide) (fun _ _ _ _ => rfl) a

/-! ### From the word to the operands and back (R101 to R103) -/

/-- A word whose fields are known and whose reserved field is zero is the command word of these fields. -/
theorem commandWord_eq_of_fieldsOf {w : Word64} {op ra rb imm : Nat} (ho : (fieldsOf w).op = op)
    (ha : (fieldsOf w).ra = ra) (hb : (fieldsOf w).rb = rb) (hz : (fieldsOf w).z = 0) (hi : (fieldsOf w).imm = imm) :
    commandWord op ra rb imm = w := by
  rw [← ho, ← ha, ← hb, ← hi, commandWord_fieldsOf hz]

section
variable {w : Word64} {op : Nat} {i : Instr} (ho : (fieldsOf w).op = op)
include ho

theorem encode_formatN {j : Instr} (h : formatN (fieldsOf w) j = .ok i) (he : encode j = commandWord op 0 0 0) :
    encode i = w := by
  obtain ⟨rfl, ha, hb, hz, hi⟩ := formatN_ok.1 h
  rw [he]
  exact commandWord_eq_of_fieldsOf ho ha hb hz hi

theorem encode_formatByte {k : Byte → Instr} (h : formatByte (fieldsOf w) k = .ok i)
    (he : ∀ b, encode (k b) = commandWord op 0 0 b.toNat) : encode i = w := by
  obtain ⟨rfl, ha, hb, hz, hi⟩ := formatByte_ok.1 h
  rw [he]
  exact commandWord_eq_of_fieldsOf ho ha hb hz (Nat.mod_eq_of_lt hi).symm

theorem encode_formatA {k : Index → Instr} (h : formatA (fieldsOf w) k = .ok i)
    (he : ∀ a, encode (k a) = commandWord op a.val 0 0) : encode i = w := by
  obtain ⟨rfl, ha, hb, hz, hi⟩ := formatA_ok.1 h
  rw [he]
  exact commandWord_eq_of_fieldsOf ho (Nat.mod_eq_of_lt ha).symm hb hz hi

theorem encode_formatAI2 {k : Index → Index → Instr} (h : formatAI2 (fieldsOf w) k = .ok i)
    (he : ∀ a b, encode (k a b) = commandWord op a.val 0 b.val) : encode i = w := by
  obtain ⟨rfl, ha, hb, hz, hi⟩ := formatAI2_ok.1 h
  rw [he]
  exact commandWord_eq_of_fieldsOf ho (Nat.mod_eq_of_lt ha).symm hb hz (Nat.mod_eq_of_lt hi).symm

theorem encode_formatAI32 {k : Index → Word32 → Instr} (h : formatAI32 (fieldsOf w) k = .ok i)
    (he : ∀ a v, encode (k a v) = commandWord op a.val 0 v.toNat) : encode i = w := by
  obtain ⟨rfl, ha, hb, hz⟩ := formatAI32_ok.1 h
  rw [he]
  exact commandWord_eq_of_fieldsOf ho (Nat.mod_eq_of_lt ha).symm hb hz (Nat.mod_eq_of_lt (fieldsOf_imm_lt w)).symm

theorem encode_formatAB {k : Index → Index → Instr} (h : formatAB (fieldsOf w) k = .ok i)
    (he : ∀ a b, encode (k a b) = commandWord op a.val b.val 0) : encode i = w := by
  obtain ⟨rfl, ha, hb, hz, hi⟩ := formatAB_ok.1 h
  rw [he]
  exact commandWord_eq_of_fieldsOf ho (Nat.mod_eq_of_lt ha).symm (Nat.mod_eq_of_lt hb).symm hz hi
end

/-- R101 to R103: one lemma per format; the cases stand in the order of the opcode table. -/
theorem encode_of_decode {w : Word64} {i : Instr} (h : decode w = .ok i) : encode i = w := by
  rw [decode, decodeFields] at h
  split at h
  case h_1 hop | h_3 hop | h_4 hop | h_26 hop | h_28 hop | h_29 hop => exact encode_formatN hop h rfl
  case h_2 hop | h_27 hop | h_30 hop => exact encode_formatByte hop h fun _ => rfl
  case h_5 hop => exact encode_formatAI32 hop h fun _ _ => rfl
  case h_8 hop => exact encode_formatAI2 hop h fun _ _ => rfl
  case h_15 hop | h_16 hop | h_21 hop | h_25 hop => exact encode_formatAB hop h fun _ _ => rfl
  case h_31 => cases h
  -- Every other opcode of the table has format A.
  all_goals
    rename_i hop
    exact encode_formatA hop h fun _ => rfl

/-! ### The rows of the opcode table (R105) -/

/-- The word is a command with this mnemonic. -/
def DecodesTo (w : Word64) (m : String) : Prop := ∃ i, decode w = .ok i ∧ i.mnemonic = m

/-- A word whose opcode is read in a format that accepts it is a command of that format's constructor. -/
theorem decodesTo_of_format {w : Word64} {op : Nat} {m : String} {i : Instr}
    {format : Fields → Except Illegal Instr} (hread : ReadAs op format) (ho : (fieldsOf w).op = op)
    (hm : i.mnemonic = m) (hok : format (fieldsOf w) = .ok i) : DecodesTo w m :=
  ⟨i, by subst ho; exact (hread _ _ _ _).trans hok, hm⟩

/-! In each of the next lemmas the last three premises are evaluated once the opcode and the constructor are named. -/

section
variable {w : Word64} {m : String}

theorem decodesTo_of_maskN (op : Nat) (k : Instr) (h : w &&& maskN = patternOf op)
    (ho : op < 256 := by decide) (hread : ReadAs op (formatN · k) := by intros _ _ _ _; rfl)
    (hm : k.mnemonic = m := by rfl) : DecodesTo w m :=
  have ⟨hop, hf⟩ := (and_maskN ho).1 h
  decodesTo_of_format hread hop hm (formatN_ok.2 ⟨rfl, hf⟩)

theorem decodesTo_of_maskByte (op : Nat) (k : Byte → Instr) (h : w &&& maskByte = patternOf op)
    (ho : op < 256 := by decide) (hread : ReadAs op (formatByte · k) := by intros _ _ _ _; rfl)
    (hm : ∀ a, (k a).mnemonic = m := by intros; rfl) : DecodesTo w m :=
  have ⟨hop, hf⟩ := (and_maskByte ho).1 h
  decodesTo_of_format hread hop (hm _) (formatByte_ok.2 ⟨rfl, hf⟩)

theorem decodesTo_of_maskA (op : Nat) (k : Index → Instr) (h : w &&& maskA = patternOf op)
    (ho : op < 256 := by decide) (hread : ReadAs op (formatA · k) := by intros _ _ _ _; rfl)
    (hm : ∀ a, (k a).mnemonic = m := by intros; rfl) : DecodesTo w m :=
  have ⟨hop, hf⟩ := (and_maskA ho).1 h
  decodesTo_of_format hread hop (hm _) (formatA_ok.2 ⟨rfl, hf⟩)

theorem decodesTo_of_maskAI2 (op : Nat) (k : Index → Index → Instr) (h : w &&& maskAI2 = patternOf op)
    (ho : op < 256 := by decide) (hread : ReadAs op (formatAI2 · k) := by intros _ _ _ _; rfl)
    (hm : ∀ a b, (k a b).mnemonic = m := by intros; rfl) : DecodesTo w m :=
  have ⟨hop, hf⟩ := (and_maskAI2 ho).1 h
  decodesTo_of_format hread hop (hm _ _) (formatAI2_ok.2 ⟨rfl, hf⟩)

theorem decodesTo_of_maskAI32 (op : Nat) (k : Index → Word32 → Instr) (h : w &&& maskAI32 = patternOf op)
    (ho : op < 256 := by decide) (hread : ReadAs op (formatAI32 · k) := by intros _ _ _ _; rfl)
    (hm : ∀ a b, (k a b).mnemonic = m := by intros; rfl) : DecodesTo w m :=
  have ⟨hop, hf⟩ := (and_maskAI32 ho).1 h
  decodesTo_of_format hread hop (hm _ _) (formatAI32_ok.2 ⟨rfl, hf⟩)

theorem decodesTo_of_maskAB (op : Nat) (k : Index → Index → Instr) (h : w &&& maskAB = patternOf op)
    (ho : op < 256 := by decide) (hread : ReadAs op (formatAB · k) := by intros _ _ _ _; rfl)
    (hm : ∀ a b, (k a b).mnemonic = m := by intros; rfl) : DecodesTo w m :=
  have ⟨hop, hf⟩ := (and_maskAB ho).1 h
  decodesTo_of_format hread hop (hm _ _) (formatAB_ok.2 ⟨rfl, hf⟩)

end

/-- R105: a word that matches a row is a command of the row's mnemonic; one line per row. -/
theorem decodesTo_of_row {w : Word64} :
    ∀ row ∈ opcodeTable, w &&& row.mask = row.pattern → DecodesTo w row.mnemonic := by
  simp only [opcodeTable, List.forall_mem_cons]
  exact ⟨decodesTo_of_maskN 0x10 .crcInit,
    decodesTo_of_maskByte 0x11 .crcUpd,
    decodesTo_of_maskN 0x12 .crcUpdb,
    decodesTo_of_maskN 0x13 .crcFin,
    decodesTo_of_maskAI32 0x20 .ctFrombytes,
    decodesTo_of_maskA 0x21 .ctFromtext,
    decodesTo_of_maskA 0x22 .ctBytes,
    decodesTo_of_maskAI2 0x23 .ctByte,
    decodesTo_of_maskA 0x24 .ctText,
    decodesTo_of_maskA 0x25 .ctIsvalid,
    decodesTo_of_maskA 0x26 .ctIscrit,
    decodesTo_of_maskA 0x27 .ctIspub,
    decodesTo_of_maskA 0x28 .ctIsrsv,
    decodesTo_of_maskA 0x29 .ctIssafe,
    decodesTo_of_maskAB 0x2A .ctEq,
    decodesTo_of_maskAB 0x30 .chNew,
    decodesTo_of_maskA 0x31 .chParse,
    decodesTo_of_maskA 0x32 .chSer,
    decodesTo_of_maskA 0x33 .chLen,
    decodesTo_of_maskA 0x34 .chOlen,
    decodesTo_of_maskAB 0x35 .chType,
    decodesTo_of_maskA 0x36 .chData,
    decodesTo_of_maskA 0x37 .chDatastr,
    decodesTo_of_maskA 0x38 .chCrc,
    decodesTo_of_maskAB 0x39 .chEq,
    decodesTo_of_maskN 0x40 .ibClr,
    decodesTo_of_maskByte 0x41 .ibPut,
    decodesTo_of_maskN 0x42 .obRd,
    decodesTo_of_maskN 0x43 .obRew,
    decodesTo_of_maskByte 0x48 .rd, nofun⟩

/-! ### The statements -/

/-- Settles O1, by the format of each command (`decode_encode`). -/
theorem decodeOfEncode : Obligations.DecodeOfEncode := decode_encode

/-- Settles O2: the format that accepts a word has checked every bit besides the operands (`encode_of_decode`). -/
theorem encodeOfDecode : Obligations.EncodeOfDecode := fun _ _ => encode_of_decode

/-- Settles O3: a word that decodes matches some row (`matchesRow_of_decode`), and a word that matches a row decodes
to a command of the row's mnemonic (`decodesTo_of_row`), which is the same command. -/
theorem decodeMatchesOpcodeTable : Obligations.DecodeMatchesOpcodeTable := by
  refine fun w m => ⟨?_, ?_⟩
  · rintro ⟨i, hi, rfl⟩
    obtain ⟨row, hrow, h⟩ := matchesRow_of_decode hi
    obtain ⟨j, hj, hm⟩ := decodesTo_of_row row hrow h
    obtain rfl : j = i := Except.ok.inj (hj.symm.trans hi)
    exact ⟨row, hrow, hm.symm, h⟩
  · rintro ⟨row, hrow, rfl, h⟩
    exact decodesTo_of_row row hrow h

/-- Settles O4: twelve closed words, evaluated. -/
theorem specWordsDecode : Obligations.SpecWordsDecode := by
  unfold Obligations.SpecWordsDecode
  decide

end Sys2Proof
end

section
/-! What a command leaves alone (spec/10_state.md R21 to R30, spec/60_exceptions.md R243): whichever way it ends, it
has made the writes of one `Effect` and no other outside the status registers; the statements O43 and O45 to O47. -/

namespace Sys2Proof.Machine

/-! ### One response (R108, R243) -/

theorem zero_mem_legalCodes : (0 : Byte) ∈ legalCodes := by decide

/-- Settles O43: in each of the three endings (`exec_cases`) the one new response is at the head. -/
theorem everyCommandAnswersOnce : Obligations.EveryCommandAnswersOnce := by
  intro i s t h
  cases exec_cases h with
  | success v s' _ e =>
    obtain ⟨-, -, -, -, -, hpending, hresponses⟩ := e.keeps_status
    refine ⟨hpending, ⟨0, v⟩, ?_, zero_mem_legalCodes, fun h0 => absurd rfl h0⟩
    rw [answered_responses, hresponses]
  | readsCsr n v => exact ⟨rfl, ⟨0, v⟩, rfl, zero_mem_legalCodes, fun h0 => absurd rfl h0⟩
  | failure cause exp act => exact ⟨rfl, ⟨cause.code, 0⟩, rfl, code_mem_legalCodes cause, fun _ => rfl⟩

/-- Settles O45: a command that answers 0 has not failed (`code_ne_zero`), and only `RD` ends without clearing. -/
theorem successWritesStatus : Obligations.SuccessWritesStatus := by
  intro i s t r h hr hc
  cases exec_cases h with
  | success v s' hrd e =>
    obtain ⟨-, hflt, -⟩ := e.keeps_status
    exact ⟨hflt, fun _ => ⟨rfl, rfl, rfl⟩, fun n hi => absurd hi (hrd n)⟩
  | readsCsr n v hi => exact ⟨rfl, fun hrd => absurd hi (hrd n), fun _ _ => rfl⟩
  | failure cause exp act =>
    have hcode : cause.code = r.code := congrArg Response.code (List.cons.inj hr).1
    exact absurd (hcode.trans hc) (code_ne_zero cause)

/-! ### One effect -/

/-- Outside the status registers and the responses, a command that ends has made the writes of one effect; a failure
and a successful `RD` have made none. -/
theorem exec_effect {i : Instr} {s t : State} (h : exec i s = .next t) :
    ∃ s' err flt eexp eact responses, Effect i s s' ∧
      t = { s' with err := err, flt := flt, eexp := eexp, eact := eact, responses := responses } := by
  cases exec_cases h with
  | success v s' _ e => exact ⟨s', _, _, _, _, _, e, rfl⟩
  | readsCsr | failure => exact ⟨s, _, _, _, _, _, .keeps, rfl⟩

section
variable {i : Instr} {s s' : State} (e : Effect i s s')
include e

theorem Effect.readT_of_ne {k : Index} (h : typeDestination i ≠ some k) : s'.readT k = s.readT k := by
  cases e with
  | constructsType td y hd => exact readT_writeT_of_ne fun hk => h (hk ▸ hd)
  | _ => rfl

theorem Effect.readC_of_ne {k : Index} (h : slotDestination i ≠ some k) : s'.readC k = s.readC k := by
  cases e with
  | constructsSlot cd y d hd => exact readC_writeC_of_ne fun hk => h (hk ▸ hd)
  | _ => rfl

theorem Effect.crcr_eq (h : writesCrcr i = false) : s'.crcr = s.crcr := by
  cases e with
  | setsCrcr r hw => simp [h] at hw
  | _ => rfl

theorem Effect.read_ibuf {a : Nat} (h : ¬ ((∃ b, i = .ibPut b) ∧ a = s.ilen)) : s'.ibuf.read a = s.ibuf.read a := by
  cases e with
  | appends b hi =>
    have ha : a ≠ s.ilen := fun ha => h ⟨⟨b, hi⟩, ha⟩
    rw [memWrite_singleton, Memory.read_write, if_neg ha]
  | _ => rfl

theorem Effect.ilen_eq (hc : i ≠ .ibClr) (hp : ∀ b, i ≠ .ibPut b) : s'.ilen = s.ilen := by
  cases e with
  | clears hi => exact absurd hi hc
  | appends b hi => exact absurd hi (hp b)
  | _ => rfl

/-- A producer writes below the byte count it delivers. -/
theorem Effect.read_obuf {a : Nat} (h : ¬ (producesOutput i = true ∧ a < s'.olen)) :
    s'.obuf.read a = s.obuf.read a := by
  cases e with
  | delivers_frame k hi => exact read_storeFrame_of_ge _ _ (not_lt.mp fun ha => h ⟨hi, ha⟩)
  | delivers_payload k hi => exact read_storePayload_of_ge _ _ (not_lt.mp fun ha => h ⟨hi, ha⟩)
  | _ => rfl

theorem Effect.olen_eq (h : producesOutput i = false) : s'.olen = s.olen := by
  cases e with
  | delivers_frame k hi | delivers_payload k hi => simp [h] at hi
  | _ => rfl

theorem Effect.orp_eq (h : producesOutput i = false) (hr : i ≠ .obRd) (hw : i ≠ .obRew) : s'.orp = s.orp := by
  cases e with
  | delivers_frame k hi | delivers_payload k hi => simp [h] at hi
  | reads hi => exact absurd hi hr
  | rewinds hi => exact absurd hi hw
  | _ => rfl

theorem Effect.maxlen_eq : s'.maxlen = s.maxlen := by
  obtain ⟨-, -, -, -, hmaxlen, -⟩ := e.keeps_status
  exact hmaxlen
end

/-- Settles O46: an effect writes no register and no slot but its destination. -/
theorem onlyDestinationChanges : Obligations.OnlyDestinationChanges := by
  intro i s t h
  obtain ⟨s', _, _, _, _, _, e, rfl⟩ := exec_effect h
  exact ⟨fun k => e.readT_of_ne, fun k => e.readC_of_ne⟩

/-- Settles O47: what each effect leaves alone, field by field. -/
theorem unitsStayApart : Obligations.UnitsStayApart := by
  intro i s t h
  obtain ⟨s', _, _, _, _, _, e, rfl⟩ := exec_effect h
  exact ⟨e.crcr_eq, fun a => e.read_ibuf, e.ilen_eq, fun a => e.read_obuf, e.olen_eq, e.orp_eq, e.maxlen_eq⟩

end Sys2Proof.Machine
end

section
/-! The step (spec/00_scope.md R6) and lists of commands handed over by the host (spec/70_reset_and_hazards.md R286):
the statements O5 and O8. -/

namespace Sys2Proof.Machine

theorem step_of_idle {s : State} (hp : s.pending = []) : step s = .next s := by
  simp only [step, hp]

/-- Settles O5: the three cases of the host's next action. -/
theorem stepRunsDecodedCommand : Obligations.StepRunsDecodedCommand :=
  ⟨fun _ _ _ _ => step_of_decode_ok, fun _ => step_of_idle, fun _ _ hp => ⟨_, step_of_reset hp, rfl, rfl⟩⟩

/-- The first step of a program executes its first command, which does not see the rest of the host's list. -/
theorem step_withProgram_cons (i : Instr) (is : List Instr) (s : State) :
    step (s.withProgram (i :: is))
      = setPendingIn (is.map fun i => .command (encode i)) (exec i { s with pending := [] }) := by
  rw [step_of_decode_ok rfl (decode_encode i)]
  exact exec_setPending i { s with pending := [] } _

/-- Settles O8, by induction on the list: a step executes the first command, and the rest of the list is the program
of the state it ends in. -/
theorem commandsRunInListOrder : Obligations.CommandsRunInListOrder := by
  intro is
  induction is with
  | nil => intro s; rfl
  | cons i is ih =>
    intro s
    have hstep := step_withProgram_cons i is s
    rw [List.length_cons, execAll]
    cases he : exec i { s with pending := [] } with
    | next t =>
      have hpending : t.pending = [] := (everyCommandAnswersOnce i _ t he).1
      rw [he] at hstep
      rw [core_run_next hstep]
      exact (ih t).trans (by rw [← hpending])
    | fault r => rw [he] at hstep; exact core_run_fault hstep
    | refused r => rw [he] at hstep; exact core_run_refused hstep

end Sys2Proof.Machine
end

section
/-! What a command can depend on (spec/10_state.md R40, spec/93_implementation_defined.md U12): every shared operation
takes states that differ only in unobservable bytes to states that do, with equal answers. With a state compared to
itself this says that every command goes on. -/

namespace Sys2Proof.Machine

/-- Both outcomes go on, to states that differ only in unobservable bytes; their responses are equal. -/
def AnswerAlike (o o' : Result) : Prop := ∃ t t', o = .next t ∧ o' = .next t' ∧ SameVisible t t'

theorem SameVisible.refl (s : State) : SameVisible s s := by
  constructor <;> intros <;> rfl

/-! ### The ends of a command -/

section
variable {s u : State} (h : SameVisible s u)
include h

theorem SameVisible.respond (v : Word64) : AnswerAlike (respond v s) (respond v u) :=
  ⟨_, _, rfl, rfl, { h with err := rfl, eexp := rfl, eact := rfl, responses := congrArg (⟨0, v⟩ :: ·) h.responses }⟩

theorem SameVisible.respondOnly (v : Word64) : AnswerAlike (respondOnly v s) (respondOnly v u) :=
  ⟨_, _, rfl, rfl, { h with responses := congrArg (⟨0, v⟩ :: ·) h.responses }⟩

theorem SameVisible.raise (cause : Cause) (exp act : Word64) :
    AnswerAlike (raise cause exp act s) (raise cause exp act u) :=
  ⟨_, _, rfl, rfl, { h with
    err := rfl, eexp := rfl, eact := rfl
    flt := congrArg (· || cause.isFault) h.flt
    responses := congrArg (⟨cause.code, 0⟩ :: ·) h.responses }⟩

theorem SameVisible.faultOf (i : Instr) (cause : Cause) : AnswerAlike (faultOf i cause s) (faultOf i cause u) :=
  h.raise cause 0 (encode i)

theorem SameVisible.bufferCapacity_eq : s.bufferCapacity = u.bufferCapacity := by
  rw [State.bufferCapacity, State.bufferCapacity, h.maxlen]

/-- A delivery that fits the buffer, of bytes that agree below the count. -/
theorem SameVisible.deliver {m m' : Memory} {n : Nat} (hn : n ≤ s.bufferCapacity)
    (hm : ∀ a, a < n → m.read a = m'.read a) : AnswerAlike (deliver m n s) (deliver m' n u) := by
  have hwritten : SameVisible { s with obuf := m, olen := n, orp := 0 } { u with obuf := m', olen := n, orp := 0 } :=
    { h with olen := rfl, obuf := hm, orp := rfl }
  rw [Machine.deliver, Machine.deliver, if_pos hn, if_pos (h.bufferCapacity_eq ▸ hn)]
  exact hwritten.respond _

end

/-- A test that both sides decide alike. -/
theorem AnswerAlike.ite {c c' : Prop} [Decidable c] [Decidable c'] {a b a' b' : Result} (hc : c ↔ c')
    (ha : c → AnswerAlike a a') (hb : ¬ c → AnswerAlike b b') :
    AnswerAlike (if c then a else b) (if c' then a' else b') := by
  by_cases h : c
  · rw [if_pos h, if_pos (hc.mp h)]; exact ha h
  · rw [if_neg h, if_neg (mt hc.mpr h)]; exact hb h

/-! ### The operands -/

section
variable {s u : State} (h : SameVisible s u)
include h

theorem SameVisible.withType {i : Instr} {ts : Index} {go go' : Quad → Result}
    (hgo : (s.readT ts).valid = true → AnswerAlike (go (s.readT ts).bytes) (go' (s.readT ts).bytes)) :
    AnswerAlike (withType i ts s go) (withType i ts u go') :=
  .ite (by rw [h.t_valid]) (fun hv => h.t_bytes ts hv ▸ hgo hv) fun _ => h.faultOf i _

theorem SameVisible.withSlot {i : Instr} {cs : Index} {go go' : Slot → Result}
    (hgo : (s.readC cs).valid = true → AnswerAlike (go (s.readC cs)) (go' (s.readC cs))) :
    AnswerAlike (withSlot i cs s go) (withSlot i cs u go') :=
  .ite (by rw [h.c_valid]) (fun hv => h.c_fields cs hv ▸ hgo hv) fun _ => h.faultOf i _

theorem SameVisible.queryType {i : Instr} {ts : Index} {answer : Quad → Word64} :
    AnswerAlike (queryType i ts answer s) (queryType i ts answer u) := h.withType fun _ => h.respond _

theorem SameVisible.querySlot {i : Instr} {cs : Index} {answer : Slot → Word64} :
    AnswerAlike (querySlot i cs answer s) (querySlot i cs answer u) := h.withSlot fun _ => h.respond _

theorem SameVisible.setCrcr {r r' : Word32} (hr : r = r') : SameVisible { s with crcr := r } { u with crcr := r' } :=
  { h with crcr := hr }

theorem SameVisible.setOrp {n n' : Nat} (hn : n = n') : SameVisible { s with orp := n } { u with orp := n' } :=
  { h with orp := hn }

/-- With `ILEN = 0` no byte of the input buffer can be seen. -/
theorem SameVisible.clearIlen : SameVisible { s with ilen := 0 } { u with ilen := 0 } :=
  { h with ilen := rfl, ibuf := fun a ha => absurd ha (Nat.not_lt_zero a) }

/-- Below the new `ILEN` the two buffers agree again. -/
theorem SameVisible.appendByte (b : Byte) :
    SameVisible { s with ibuf := memWrite s.ibuf s.ilen 1 [b], ilen := s.ilen + 1 }
      { u with ibuf := memWrite u.ibuf s.ilen 1 [b], ilen := s.ilen + 1 } := { h with
  ilen := rfl
  ibuf := fun a (ha : a < s.ilen + 1) => by
    simp only [memWrite_singleton, Memory.read_write]
    split
    · rfl
    · exact h.ibuf a (by omega) }

theorem SameVisible.writeT (k : Index) (y : Quad) : SameVisible (s.writeT k y) (u.writeT k y) := { h with
  t_valid := fun j => by
    rw [readT_writeT, readT_writeT]
    split
    · rfl
    · exact h.t_valid j
  t_bytes := fun j hv => by
    rw [readT_writeT] at hv
    rw [readT_writeT, readT_writeT]
    split
    · rfl
    · rename_i hj
      rw [if_neg hj] at hv
      exact h.t_bytes j hv }

theorem SameVisible.writeC (k : Index) (l : Word32) (y : Quad) (d : List Byte) (crc : Word32) :
    SameVisible (s.writeC k l y d crc) (u.writeC k l y d crc) := { h with
  c_valid := fun j => by
    rw [readC_writeC, readC_writeC]
    split
    · rfl
    · exact h.c_valid j
  c_fields := fun j hv => by
    rw [readC_writeC] at hv
    rw [readC_writeC, readC_writeC]
    split
    · rfl
    · rename_i hj
      rw [if_neg hj] at hv
      exact h.c_fields j hv }

theorem SameVisible.constructType (td : Index) (y : Quad) :
    AnswerAlike (constructType td y s) (constructType td y u) :=
  .ite Iff.rfl (fun _ => (h.writeT td y).respond 0) fun _ => h.raise _ _ _

/-- `MemRead` of the input buffer below `ILEN`. -/
theorem SameVisible.memRead_ibuf {a n : Nat} (hn : a + n ≤ s.ilen) : memRead s.ibuf a n = memRead u.ibuf a n :=
  memRead_congr fun x _ hx => h.ibuf x (by omega)

theorem SameVisible.memReadQuad_ibuf {a : Nat} (hn : a + 4 ≤ s.ilen) : memReadQuad s.ibuf a = memReadQuad u.ibuf a :=
  eq_memReadQuad ((toList_memReadQuad s.ibuf a).trans (h.memRead_ibuf hn))

theorem SameVisible.inputBytes_eq : inputBytes s = inputBytes u := by
  rw [inputBytes, inputBytes, ← h.ilen, h.memRead_ibuf (by omega)]

/-- No CSR shows an unobservable byte (R31, R34). -/
theorem SameVisible.csrValue_eq (n : Byte) : csrValue s n = csrValue u n := by
  simp only [csrValue, statusWord, validWord, h.err, h.flt, h.eexp, h.eact, h.crcr, h.ilen, h.olen, h.orp, h.t_valid,
    h.c_valid, h.maxlen]

/-! ### The commands with a body of their own -/

theorem SameVisible.execChNew (cd ts : Index) : AnswerAlike (execChNew cd ts s) (execChNew cd ts u) := by
  refine h.withType fun _ => .ite (by rw [h.ilen, h.maxlen]) (fun _ => h.faultOf _ _) fun _ => ?_
  rw [← h.inputBytes_eq, ← h.ilen]
  exact (h.writeC ..).respond 0

/-- R184: each slice is taken below `ILEN`. -/
theorem SameVisible.execChParse (cd : Index) : AnswerAlike (execChParse cd s) (execChParse cd u) := by
  simp only [Machine.execChParse, ← h.ilen]
  refine .ite Iff.rfl (fun _ => h.raise _ _ _) fun hn => ?_
  rw [← h.memReadQuad_ibuf (a := 0) (by omega), ← h.memReadQuad_ibuf (a := 4) (by omega)]
  refine .ite Iff.rfl (fun _ => h.raise _ _ _) fun _ => .ite Iff.rfl (fun _ => h.raise _ _ _) fun hl => ?_
  rw [← h.memRead_ibuf (a := 8) (by omega), ← h.memReadQuad_ibuf (a := 8 + _) (by omega)]
  exact .ite Iff.rfl (fun _ => h.raise _ _ _) fun _ => .ite Iff.rfl (fun _ => h.raise _ _ _) fun _ =>
    (h.writeC ..).respond 0

theorem SameVisible.execIbPut (hi : s.ilen ≤ s.bufferCapacity) (b : Byte) :
    AnswerAlike (execIbPut b s) (execIbPut b u) := by
  rw [Machine.execIbPut, Machine.execIbPut, ← h.ilen, ← h.bufferCapacity_eq]
  refine .ite Iff.rfl (fun _ => h.faultOf _ _) fun _ => ?_
  rw [if_neg hi.not_gt, if_neg hi.not_gt]
  exact (h.appendByte b).respond _

/-- R225: the byte read lies below `OLEN`. -/
theorem SameVisible.execObRd : AnswerAlike (execObRd s) (execObRd u) := by
  refine .ite (by rw [h.orp, h.olen]) (fun _ => h.faultOf _ _) fun hlt => ?_
  rw [h.obuf s.orp (by omega), h.orp]
  exact (h.setOrp rfl).respond _

theorem SameVisible.execRd (n : Byte) : AnswerAlike (execRd n s) (execRd n u) := by
  rw [Machine.execRd, Machine.execRd, ← h.csrValue_eq]
  split
  · exact h.respondOnly _
  · exact h.faultOf _ _

end

/-! ### The producers -/

/-- A sequence stored over two byte spaces from offset 0 on reads alike as far as it reaches. -/
theorem read_memWriteAll_congr (m m' : Memory) (v : List Byte) {a : Nat} (ha : a < v.length) :
    (memWriteAll m 0 v).read a = (memWriteAll m' 0 v).read a := by
  rw [read_memWriteAll, read_memWriteAll, if_pos (by omega), if_pos (by omega)]

section
variable {s u : State} (h : SameVisible s u) {slot : Slot} (hslot : SlotInvariant s.maxlen slot)
include h hslot

theorem SameVisible.deliver_storeFrame :
    AnswerAlike (Machine.deliver (storeFrame s.obuf slot) (12 + slot.length.toNat) s)
      (Machine.deliver (storeFrame u.obuf slot) (12 + slot.length.toNat) u) := by
  refine h.deliver (by have := hslot.length_le; rw [State.bufferCapacity]; omega) fun a ha => ?_
  rw [storeFrame_eq _ hslot.length_eq, storeFrame_eq _ hslot.length_eq]
  exact read_memWriteAll_congr _ _ _ (by rwa [length_frameBytes, ← hslot.length_eq])

theorem SameVisible.deliver_storePayload :
    AnswerAlike (Machine.deliver (storePayload s.obuf slot) slot.length.toNat s)
      (Machine.deliver (storePayload u.obuf slot) slot.length.toNat u) := by
  refine h.deliver (Nat.le_add_right_of_le hslot.length_le) fun a ha => ?_
  rw [storePayload_eq _ hslot.length_eq, storePayload_eq _ hslot.length_eq]
  exact read_memWriteAll_congr _ _ _ (by rwa [← hslot.length_eq])
end

/-! ### Every command, and the step -/

/-- From states that meet the invariant and differ only in unobservable bytes every command goes on and answers alike.
-/
theorem SameVisible.exec {s u : State} (h : SameVisible s u) (hs : Invariant s) (i : Instr) :
    AnswerAlike (exec i s) (exec i u) := by
  cases i with
  -- The CRC unit.
  | crcInit => exact (h.setCrcr rfl).respond 0
  | crcUpd b => exact (h.setCrcr (congrArg (crcStep · b) h.crcr)).respond 0
  | crcUpdb => exact (h.setCrcr (by rw [h.inputBytes_eq, h.crcr])).respond 0
  | crcFin =>
    rw [Machine.exec, Machine.exec, execCrcFin, execCrcFin, ← h.crcr]
    exact h.respond _
  -- The ChunkType unit.
  | ctFrombytes td imm => exact h.constructType td _
  | ctFromtext td =>
    rw [Machine.exec, Machine.exec, execCtFromtext, execCtFromtext, ← h.ilen]
    refine .ite Iff.rfl (fun _ => h.faultOf _ _) fun hn => ?_
    rw [← h.memReadQuad_ibuf (by omega)]
    exact h.constructType td _
  | ctBytes | ctByte | ctText | ctIsvalid | ctIscrit | ctIspub | ctIsrsv | ctIssafe =>
    simp only [exec_ctBytes, exec_ctByte, exec_ctText, exec_ctIsvalid, exec_ctIscrit, exec_ctIspub, exec_ctIsrsv,
      exec_ctIssafe]
    exact h.queryType
  | ctEq ta tb =>
    rw [Machine.exec, Machine.exec, execCtEq, execCtEq]
    refine h.withType fun _ => ?_
    refine h.withType fun _ => ?_
    exact h.respond _
  -- The Chunk unit.
  | chNew cd ts => exact h.execChNew cd ts
  | chParse cd => exact h.execChParse cd
  | chSer cs =>
    rw [exec_chSer, exec_chSer]
    refine h.withSlot fun hv => ?_
    exact h.deliver_storeFrame (hs.slots cs hv)
  | chLen | chOlen | chCrc =>
    simp only [exec_chLen, exec_chOlen, exec_chCrc]
    exact h.querySlot
  | chType td cs =>
    rw [exec_chType, exec_chType]
    refine h.withSlot fun _ => ?_
    exact (h.writeT td _).respond _
  | chData cs =>
    rw [exec_chData, exec_chData]
    refine h.withSlot fun hv => ?_
    exact h.deliver_storePayload (hs.slots cs hv)
  | chDatastr cs =>
    rw [Machine.exec, Machine.exec, execChDatastr, execChDatastr]
    refine h.withSlot fun hv => .ite Iff.rfl (fun _ => ?_) fun _ => ?_
    · exact h.raise _ _ _
    · exact h.deliver_storePayload (hs.slots cs hv)
  | chEq ca cb =>
    rw [Machine.exec, Machine.exec, execChEq, execChEq]
    refine h.withSlot fun _ => ?_
    refine h.withSlot fun _ => ?_
    exact h.respond _
  -- The buffers and the system registers.
  | ibClr => exact h.clearIlen.respond 0
  | ibPut b => exact h.execIbPut hs.ilen_le b
  | obRd => exact h.execObRd
  | obRew =>
    have hcount : zextNat s.olen = zextNat u.olen := congrArg zextNat h.olen
    rw [exec_obRew, exec_obRew, hcount]
    exact (h.setOrp rfl).respond _
  | rd n => exact h.execRd n

end Sys2Proof.Machine
end

section
/-! The invariant of every reachable state (spec/10_state.md R22 to R32): it holds after reset, every effect and every
ending of a command keeps it, and from it every command goes on; the statements O48 to O50. -/

namespace Sys2Proof.Machine

/-! ### Reset and the host's two lists -/

theorem invariant_resetWith (m : Word32) : Invariant (State.resetWith m) where
  types k hv := by simp [TypeReg.empty] at hv
  slots k hv := by simp [Slot.empty] at hv
  ilen_le := Nat.zero_le _
  olen_le := Nat.zero_le _
  orp_le := le_rfl
  ibuf_wf := Memory.wf_nil
  obuf_wf := Memory.wf_nil
  ibuf_inside := by simp
  obuf_inside := by simp
  err_legal := zero_mem_legalCodes
  fault_flagged hbit := by simp at hbit

/-- Settles O48: the state of a reset with any parameter, and with the one of the machine. -/
theorem invariantAtReset : Obligations.InvariantAtReset := ⟨invariant_resetWith, invariant_resetWith _⟩

/-- The invariant says nothing of what the host will do. -/
theorem Invariant.setPending {s : State} (h : Invariant s) (p : List HostAction) : Invariant { s with pending := p } :=
  { h with }

theorem Invariant.takeReset (s : State) : Invariant (takeReset s) := { invariant_resetWith s.maxlen with }

/-! ### The endings keep it (R243, R244) -/

theorem Invariant.answered {s : State} (h : Invariant s) (v : Word64) : Invariant (answered v s) :=
  { h with err_legal := zero_mem_legalCodes, fault_flagged := fun hbit => by simp at hbit }

theorem Invariant.addResponse {s : State} (h : Invariant s) (r : Response) :
    Invariant { s with responses := r :: s.responses } := { h with }

/-- A fault code never stands without `FLT` (R32). -/
theorem Invariant.failedWith {s : State} (h : Invariant s) (cause : Cause) (exp act : Word64) :
    Invariant (failedWith cause.code exp act s) := { h with
  err_legal := code_mem_legalCodes cause
  fault_flagged := fun hbit => by
    rw [failedWith_err] at hbit
    rw [failedWith_flt, hbit, Bool.or_true] }

/-! ### The effects keep it -/

section
variable {s : State} (h : Invariant s)
include h

/-- R22: the register now full holds letters. -/
theorem Invariant.writeT (k : Index) {y : Quad} (hy : y.letters = true) : Invariant (s.writeT k y) := { h with
  types := fun j hv => by
    rw [readT_writeT] at hv ⊢
    split at hv
    · rw [if_pos ‹_›]; exact hy
    · rw [if_neg ‹_›]; exact h.types j hv }

/-- R25: the slot now full meets its own invariants. -/
theorem Invariant.writeC (k : Index) {l : Word32} {y : Quad} {d : List Byte} {crc : Word32}
    (hslot : SlotInvariant s.maxlen ⟨true, l, y, d, crc⟩) : Invariant (s.writeC k l y d crc) := { h with
  slots := fun j hv => by
    rw [readC_writeC] at hv ⊢
    split at hv
    · rw [if_pos ‹_›]; exact hslot
    · rw [if_neg ‹_›]; exact h.slots j hv }

/-- R30: a sequence that fits, stored from offset 0 on, keeps the buffer in form and inside its capacity. -/
theorem Invariant.store {v : List Byte} {n : Nat} (hv : v.length = n) (hn : n ≤ s.bufferCapacity) :
    Invariant { s with obuf := memWriteAll s.obuf 0 v, olen := n, orp := 0 } := { h with
  olen_le := hn
  orp_le := Nat.zero_le _
  obuf_wf := wf_memWriteAll h.obuf_wf 0 v
  obuf_inside := lt_of_mem_memWriteAll (((Nat.zero_add _).trans hv).trans_le hn) h.obuf_inside }

/-- R29: one byte appended below the capacity. -/
theorem Invariant.appendByte (b : Byte) (hn : s.ilen < s.bufferCapacity) :
    Invariant { s with ibuf := memWrite s.ibuf s.ilen 1 [b], ilen := s.ilen + 1 } := { h with
  ilen_le := hn
  ibuf_wf := wf_memWrite h.ibuf_wf _ _ _
  ibuf_inside := lt_of_mem_memWrite hn h.ibuf_inside }

theorem Invariant.effect {i : Instr} {s' : State} (e : Effect i s s') : Invariant s' := by
  cases e with
  | keeps => exact h
  | setsCrcr r => exact { h with }
  | constructsType td y _ hy =>
    refine h.writeT td ?_
    obtain hy | ⟨k, hv, rfl⟩ := hy
    · exact hy
    · exact (h.slots k hv).letters
  | constructsSlot cd y d _ hy hd =>
    refine h.writeC cd (slotInvariant_of_letters (hd h.ilen_le) ?_)
    obtain hy | ⟨k, hv, rfl⟩ := hy
    · exact hy
    · exact h.types k hv
  | clears => exact { h with ilen_le := Nat.zero_le _ }
  | appends b _ hn => exact h.appendByte b hn
  | delivers_frame k _ hv hn =>
    have hlen := (h.slots k hv).length_eq
    rw [storeFrame_eq _ hlen]
    exact h.store (by rw [length_frameBytes, hlen]) hn
  | delivers_payload k _ hv hn =>
    have hlen := (h.slots k hv).length_eq
    rw [storePayload_eq _ hlen]
    exact h.store hlen.symm hn
  | reads _ hlt => exact { h with orp_le := hlt }
  | rewinds => exact { h with orp_le := Nat.zero_le _ }

theorem Invariant.exec {i : Instr} {t : State} (ht : exec i s = .next t) : Invariant t := by
  cases exec_cases ht with
  | success v s' _ e => exact (h.effect e).answered v
  | readsCsr n v => exact h.addResponse ⟨0, v⟩
  | failure cause exp act => exact h.failedWith cause exp act

end

/-! ### The step -/

theorem SameVisible.setPending {s u : State} (h : SameVisible s u) (p : List HostAction) :
    SameVisible { s with pending := p } { u with pending := p } := { h with pending := rfl }

theorem SameVisible.takeReset {s u : State} (h : SameVisible s u) : SameVisible (takeReset s) (takeReset u) :=
  { SameVisible.refl (State.resetWith s.maxlen) with
    maxlen := h.maxlen, pending := h.pending, responses := h.responses
    t_valid := fun k => by rw [readT_takeReset, readT_takeReset]
    t_bytes := fun k _ => by rw [readT_takeReset, readT_takeReset]
    c_valid := fun k => by rw [readC_takeReset, readC_takeReset]
    c_fields := fun k _ => by rw [readC_takeReset, readC_takeReset] }

/-- The cases of the host's next action, which both states have in common. -/
theorem SameVisible.step {s u : State} (h : SameVisible s u) (hs : Invariant s) : AnswerAlike (step s) (step u) := by
  match hp : s.pending with
  | [] => rw [step_of_idle hp, step_of_idle (h.pending ▸ hp)]; exact ⟨s, u, rfl, rfl, h⟩
  | .reset :: rest =>
    rw [step_of_reset hp, step_of_reset (h.pending ▸ hp)]
    exact ⟨_, _, rfl, rfl, (h.setPending rest).takeReset⟩
  | .command w :: rest =>
    cases hd : decode w with
    | ok i =>
      rw [step_of_decode_ok hp hd, step_of_decode_ok (h.pending ▸ hp) hd]
      exact (h.setPending rest).exec (hs.setPending rest) i
    | error e =>
      rw [step_of_decode_error hp hd, step_of_decode_error (h.pending ▸ hp) hd]
      exact (h.setPending rest).raise .illegalCommand 0 w

theorem Invariant.step {s t : State} (h : Invariant s) (ht : step s = .next t) : Invariant t := by
  match hp : s.pending with
  | [] =>
    rw [step_of_idle hp] at ht
    cases ht
    exact h
  | .reset :: rest =>
    rw [step_of_reset hp] at ht
    cases ht
    exact .takeReset _
  | .command w :: rest =>
    cases hd : decode w with
    | ok i =>
      rw [step_of_decode_ok hp hd] at ht
      exact (h.setPending rest).exec ht
    | error e =>
      rw [step_of_decode_error hp hd] at ht
      cases ht
      exact (h.setPending rest).failedWith .illegalCommand 0 w

/-- Settles O49: a state that meets the invariant answers as itself, so it answers, and the state after it meets the
invariant. -/
theorem stepGoesOnAndKeepsInvariant : Obligations.StepGoesOnAndKeepsInvariant := by
  intro s h
  obtain ⟨t, -, ht, -⟩ := (SameVisible.refl s).step h
  exact ⟨t, ht, h.step ht⟩

/-- Settles O50: the relation holds of every end of a command (`SameVisible.exec`), and of the reset and the idle
step. -/
theorem unobservableBytesNeverShow : Obligations.UnobservableBytesNeverShow := fun _ _ hs _ h => h.step hs

end Sys2Proof.Machine
end

section
/-! The byte step of CRC-32 in its other forms (spec/40_crc.md R133, R140) and what it detects (R141): the statements
O14 to O16. -/

namespace Sys2Proof.Machine

/-! ### The bit-serial form (R140) -/

theorem crcShifts_succ (n : Nat) (r : Word32) : crcShifts (n + 1) r = crcShift (crcShifts n r) := by
  induction n generalizing r with
  | zero => rfl
  | succ n ih => rw [crcShifts, ih]; rfl

/-- Shift `i` of the bit-serial form: bit `i` of the byte enters the feedback (R140). -/
def serialShift (b : Byte) (x : Word32) (i : Nat) : Word32 :=
  if Bool.xor (x.getLsbD 0) (b.getLsbD i) then (x >>> 1) ^^^ 0xEDB88320 else x >>> 1

/-- A shift of the register with what is left of the byte over it is the serial shift with one bit less left over it. -/
theorem crcShift_xor_ushiftRight (x : Word32) (b : Byte) (i : Nat) :
    crcShift (x ^^^ b.setWidth 32 >>> i) = serialShift b x i ^^^ b.setWidth 32 >>> (i + 1) := by
  have hbit : (x ^^^ b.setWidth 32 >>> i).getLsbD 0 = Bool.xor (x.getLsbD 0) (b.getLsbD i) := by
    simp only [BitVec.getLsbD_xor, BitVec.getLsbD_ushiftRight, BitVec.getLsbD_setWidth, Nat.add_zero]
    by_cases hi : i < 32
    · rw [decide_eq_true hi, Bool.true_and]
    · rw [BitVec.getLsbD_of_ge b i (by omega), Bool.and_false]
  rw [crcShift, serialShift, hbit, BitVec.ushiftRight_xor_distrib, ← BitVec.shiftRight_add, crcPolynomial]
  split
  · ac_rfl
  · rfl

/-- After `n` shifts the byte step is ahead of the bit-serial form by the bits of the byte still to come. -/
theorem crcShifts_eq_serial (r : Word32) (b : Byte) (n : Nat) :
    crcShifts n (r ^^^ b.setWidth 32) = (List.range n).foldl (serialShift b) r ^^^ b.setWidth 32 >>> n := by
  induction n with
  | zero => rw [BitVec.ushiftRight_zero]; rfl
  | succ n ih => rw [crcShifts_succ, ih, crcShift_xor_ushiftRight, List.range_succ, List.foldl_append]; rfl

/-- No bit of a byte is left after eight shifts. -/
theorem ushiftRight_eight_eq_zero (b : Byte) : b.setWidth 32 >>> 8 = 0#32 := by
  apply BitVec.eq_of_toNat_eq
  rw [BitVec.toNat_ushiftRight, BitVec.toNat_setWidth, Nat.mod_eq_of_lt (by omega), Nat.shiftRight_eq_div_pow,
    Nat.div_eq_of_lt b.isLt, BitVec.toNat_ofNat, Nat.zero_mod]

/-- Settles O15: after eight shifts nothing of the byte is still to come. -/
theorem crcBitSerialForm : Obligations.CrcBitSerialForm := by
  intro r b
  rw [crcStep, crcShifts_eq_serial, ushiftRight_eight_eq_zero, BitVec.xor_zero]
  rfl

/-! ### The table form (R133) -/

/-- While the low bits are zero, no feedback enters. -/
theorem crcShifts_eq_ushiftRight {n : Nat} {r : Word32} (h : ∀ i, i < n → r.getLsbD i = false) :
    crcShifts n r = r >>> n := by
  induction n with
  | zero => rw [crcShifts, BitVec.ushiftRight_zero]
  | succ n ih =>
    have hbit : (r >>> n).getLsbD 0 = false := by rw [BitVec.getLsbD_ushiftRight]; exact h n (Nat.lt_succ_self n)
    rw [crcShifts_succ, ih fun i hi => h i (by omega), crcShift, hbit, if_neg Bool.false_ne_true, BitVec.shiftRight_add]

/-- The words of the table are the eight shifts of the byte values (R133): 16 rows of 16 words, evaluated. -/
theorem crcShifts_eight_row : ∀ row, row < 16 → ∀ column, column < 16 →
    crcShifts 8 (BitVec.ofNat 32 (16 * row + column)) = Config.crcTable.getD (16 * row + column) 0 := by
  decide

theorem crcShifts_eight_byte (b : Byte) : crcShifts 8 (b.setWidth 32) = Config.crcTable.getD b.toNat 0 := by
  have hrow := crcShifts_eight_row (b.toNat / 16) (by omega) (b.toNat % 16) (by omega)
  rwa [Nat.div_add_mod, BitVec.ofNat_toNat] at hrow

/-- By linearity (`crcShifts_xor`): the low byte of the register is looked up, the rest moves down without feedback. -/
theorem crcShifts_eight (x : Word32) :
    crcShifts 8 x = Config.crcTable.getD (x.toNat % 256) 0 ^^^ x >>> 8 := by
  have hlow : crcShifts 8 ((x.setWidth 8).setWidth 32) = Config.crcTable.getD (x.toNat % 256) 0 :=
    crcShifts_eight_byte (x.setWidth 8)
  have hrest : ∀ i, i < 8 → ((x.setWidth 8).setWidth 32 ^^^ x).getLsbD i = false := by
    intro i hi
    have h32 : i < 32 := by omega
    simp [hi, h32]
  calc crcShifts 8 x
      = crcShifts 8 ((x.setWidth 8).setWidth 32 ^^^ ((x.setWidth 8).setWidth 32 ^^^ x)) := by
        rw [← BitVec.xor_assoc, BitVec.xor_self, BitVec.zero_xor]
    _ = crcShifts 8 ((x.setWidth 8).setWidth 32) ^^^ ((x.setWidth 8).setWidth 32 ^^^ x) >>> 8 := by
        rw [crcShifts_xor, crcShifts_eq_ushiftRight hrest]
    _ = Config.crcTable.getD (x.toNat % 256) 0 ^^^ x >>> 8 := by
        rw [hlow, BitVec.ushiftRight_xor_distrib, ushiftRight_eight_eq_zero, BitVec.zero_xor]

/-- Settles O14: the byte lies below bit 8, so it has no part in the shifted register. -/
theorem crcTableForm : Obligations.CrcTableForm := by
  intro r b
  rw [crcStep, crcShifts_eight, BitVec.ushiftRight_xor_distrib r, ushiftRight_eight_eq_zero, BitVec.xor_zero]

/-! ### What the checksum detects (R141) -/

theorem crcStep_left_injective {r u : Word32} {b : Byte} (h : crcStep r b = crcStep u b) : r = u :=
  (BitVec.xor_left_inj _).mp (crcShifts_injective h)

theorem crcStep_right_injective {r : Word32} {b c : Byte} (h : crcStep r b = crcStep r c) : b = c := by
  have hword : b.setWidth 32 = c.setWidth 32 := (BitVec.xor_right_inj _).mp (crcShifts_injective h)
  have hnat := congrArg BitVec.toNat hword
  rw [BitVec.toNat_setWidth, BitVec.toNat_setWidth] at hnat
  exact BitVec.eq_of_toNat_eq (by omega)

/-- The same bytes after two different registers leave two different registers. -/
theorem crcRun_left_injective {r u : Word32} {bytes : List Byte} (h : crcRun r bytes = crcRun u bytes) : r = u := by
  induction bytes generalizing r u with
  | nil => exact h
  | cons b bytes ih => exact crcStep_left_injective (ih h)

/-- Settles O16: the two registers differ after the changed byte, and no byte after it makes them equal again. -/
theorem singleByteChangeDetected : Obligations.SingleByteChangeDetected := by
  intro front back b b' hne h
  simp only [crc32, crcRun_append, crcRun_cons] at h
  exact hne (crcStep_right_injective (crcRun_left_injective ((BitVec.xor_left_inj _).mp h)))

end Sys2Proof.Machine
end

section
/-! The digest commands as a stream (spec/40_crc.md R135 to R142): what a list of `CRC.UPD` leaves, and the statements
O11 to O13 and O17. -/

namespace Sys2Proof.Machine

/-- R138. -/
@[simp] theorem exec_crcUpdb (s : State) :
    exec .crcUpdb s = .next (answered 0 { s with crcr := crcRun s.crcr (inputBytes s) }) :=
  respond_eq 0 { s with crcr := crcRun s.crcr (inputBytes s) }

/-- R139. -/
@[simp] theorem exec_crcFin (s : State) : exec .crcFin s = .next (answered (zext32 (s.crcr ^^^ crcFinalXor)) s) :=
  respond_eq (zext32 (s.crcr ^^^ crcFinalXor)) s

/-- Settles O11: over no bytes the fold leaves the register. -/
theorem crcUpdbStepsInputBuffer : Obligations.CrcUpdbStepsInputBuffer := by
  refine ⟨by decide, exec_crcUpdb, fun s h => ?_⟩
  have hempty : inputBytes s = [] := by rw [inputBytes, h]; rfl
  rw [exec_crcUpdb, hempty, crcRun_nil]

/-- Settles O12: the complement of the initial register is 0. -/
theorem crcFinAnswersDigest : Obligations.CrcFinAnswersDigest := by
  have hzero : zext32 (crcInitial ^^^ crcFinalXor) = 0 := by decide
  refine ⟨by decide, exec_crcFin, fun s => ?_⟩
  refine ⟨_, (execAll_cons (exec_crcInit s)).trans (execAll_cons (exec_crcFin _)), ?_⟩
  rw [answered_responses, answered_crcr, hzero, List.head?_cons]

/-- One `CRC.UPD` per byte steps the register over the bytes and leaves the input buffer as it stands. -/
theorem execAll_crcUpd (bytes : List Byte) (s : State) :
    ∃ t, execAll (bytes.map .crcUpd) s = .next t ∧ t.crcr = crcRun s.crcr bytes ∧ inputBytes t = inputBytes s := by
  induction bytes generalizing s with
  | nil => exact ⟨s, rfl, rfl, rfl⟩
  | cons b bytes ih =>
    rw [List.map_cons, execAll_cons (exec_crcUpd b s)]
    exact ih _

/-- The same after `CRC.INIT`: the register of a checksum of these bytes begun afresh (R134, R136). -/
theorem execAll_crcInit_crcUpd (bytes : List Byte) (s : State) :
    ∃ t, execAll (.crcInit :: bytes.map .crcUpd) s = .next t ∧ t.crcr = crcRun crcInitial bytes ∧
      inputBytes t = inputBytes s := by
  rw [execAll_cons (exec_crcInit s)]
  exact execAll_crcUpd bytes _

/-- Settles O13: a list of `CRC.UPD` and `CRC.UPDB` are the same fold, and `CRC.FIN` complements it. -/
theorem digestCommandsComputeCrc32 : Obligations.DigestCommandsComputeCrc32 := by
  refine ⟨fun s => ?_, fun bytes s => ?_⟩
  · obtain ⟨u, hu, hcrcr, -⟩ := execAll_crcUpd (inputBytes s) s
    exact ⟨_, u, exec_crcUpdb s, hu, hcrcr⟩
  · obtain ⟨t, ht, hcrcr, -⟩ := execAll_crcInit_crcUpd bytes s
    refine ⟨_, (execAll_append ht).trans (execAll_cons (exec_crcFin t)), ?_⟩
    rw [answered_responses, hcrcr, crc32, List.head?_cons]

/-- The checksum of the slot `CH.NEW` fills from a full type register and a payload that fits (R181). -/
theorem exec_chNew_crc {cd ts : Index} {s : State} (hv : (s.readT ts).valid = true) (hn : s.ilen ≤ s.maxlen.toNat) :
    ∃ u, exec (.chNew cd ts) s = .next u ∧
      (u.readC cd).crc = chunkChecksum (s.readT ts).bytes (inputBytes s) := by
  have hfull : s.readT ts = ⟨true, (s.readT ts).bytes⟩ := by rw [← hv]
  exact ⟨_, exec_chNew_of_le hfull hn, congrArg Slot.crc (readC_writeC_self s cd _ _ _ _)⟩

/-- Settles O17: both sides are one run over the type bytes and then the input buffer (`crcRun_append`). -/
theorem streamedDigestIsChunkChecksum : Obligations.StreamedDigestIsChunkChecksum := by
  intro cd ts s hv hn
  obtain ⟨t, ht, hcrcr, hinput⟩ := execAll_crcInit_crcUpd (s.readT ts).bytes.toList s
  obtain ⟨u, hu, hcrc⟩ := exec_chNew_crc (cd := cd) hv hn
  have hend := (execAll_cons (is := [.crcFin]) (exec_crcUpdb t)).trans (execAll_cons (exec_crcFin _))
  refine ⟨_, u, (execAll_append ht).trans hend, hu, ?_⟩
  rw [answered_responses, answered_crcr, hcrc, chunkChecksum, crc32, crcRun_append, hcrcr, hinput, List.head?_cons]

end Sys2Proof.Machine
end

section
/-! Frames and chunks (spec/30_encoding.md R90, R97, spec/42_chunk.md R180, R184, R186): the slot a frame spells, that
`CH.PARSE` and `CH.SER` are inverse to each other, and the statements O30 and O32 to O34. -/

namespace Sys2Proof.Machine

/-- Settles O30: the four tests of the scan are the rows of the table by their length (`utf8Valid_iff_utf8Text`). -/
theorem utf8ScanDecidesGrammar : Obligations.Utf8ScanDecidesGrammar := fun _ => utf8Valid_iff_utf8Text

/-- Settles O32: under R25 the length and the checksum are functions of type and payload. -/
theorem equalTypeAndDataIsEqualChunk : Obligations.EqualTypeAndDataIsEqualChunk := by
  intro ca cb s h ha hb
  refine ⟨_, exec_chEq_full rfl rfl ha hb, ?_⟩
  have ia := h.slots ca ha
  have ib := h.slots cb hb
  have hlength (hd : (s.readC ca).data = (s.readC cb).data) : (s.readC ca).length = (s.readC cb).length :=
    BitVec.eq_of_toNat_eq (by rw [ia.length_eq, ib.length_eq, hd])
  rw [ia.crc_eq, ib.crc_eq]
  split
  case isTrue hall =>
    obtain ⟨-, htype, hdata, -⟩ := hall
    exact ⟨fun _ => ⟨htype, hdata⟩, fun _ => rfl⟩
  case isFalse hnot =>
    refine ⟨fun h01 => absurd h01 (by decide), fun ⟨htype, hdata⟩ => absurd ?_ hnot⟩
    exact ⟨hlength hdata, htype, hdata, by rw [htype, hdata]⟩

/-! ### The slot a frame spells -/

/-- The slot spelled by the frame that begins at offset 0 (R90, R184): length, type, payload and checksum as they
stand. -/
def frameSlot (m : Memory) : Slot :=
  let l := be32 (memReadQuad m 0)
  ⟨true, l, memReadQuad m 4, memRead m 8 l.toNat, be32 (memReadQuad m (8 + l.toNat))⟩

/-- A range of at least twelve bytes, cut as a frame is (R90). -/
theorem memRead_frame (m : Memory) (l : Nat) :
    memRead m 0 (12 + l) = (memReadQuad m 0).toList ++ (memReadQuad m 4).toList ++ memRead m 8 l
      ++ (memReadQuad m (8 + l)).toList := by
  have hsum : 12 + l = 4 + 4 + l + 4 := by omega
  rw [hsum, memRead_append, memRead_append, memRead_append, toList_memReadQuad, toList_memReadQuad, toList_memReadQuad]
  simp only [Nat.zero_add, Nat.reduceAdd]

/-- The frame of the slot a frame spells is that frame. -/
theorem frameBytes_frameSlot (m : Memory) :
    frameBytes (frameSlot m) = memRead m 0 (12 + (frameSlot m).length.toNat) := by
  rw [memRead_frame]
  simp only [frameBytes, frameSlot, bytesBe32_be32]

/-- A slot that says how many bytes it holds is spelled by its frame. -/
theorem frameSlot_of_frameBytes {m : Memory} {slot : Slot} (hv : slot.valid = true)
    (hlen : slot.length.toNat = slot.data.length) (h : memRead m 0 (12 + slot.length.toNat) = frameBytes slot) :
    frameSlot m = slot := by
  obtain ⟨valid, length, type, data, crc⟩ := slot
  rw [memRead_frame, frameBytes] at h
  obtain ⟨h, hcrc⟩ := List.append_inj' h rfl
  obtain ⟨h, hdata⟩ := List.append_inj' h ((length_memRead _ _ _).trans hlen)
  obtain ⟨hlength, htype⟩ := List.append_inj' h rfl
  replace hlength : be32 (memReadQuad m 0) = length := by rw [Quad.toList_injective hlength, be32_bytesBe32]
  replace hcrc : be32 (memReadQuad m (8 + length.toNat)) = crc := by rw [Quad.toList_injective hcrc, be32_bytesBe32]
  simp only [frameSlot, hlength, hcrc, hdata, Quad.toList_injective htype]
  rw [← hv]

/-! ### `CH.PARSE` in terms of the frame (R184) -/

/-- A frame of letters that lies below `ILEN` and carries its own checksum is parsed to the slot it spells. -/
theorem exec_chParse_frameSlot {cd : Index} {s : State} (hn : 12 + (frameSlot s.ibuf).length.toNat ≤ s.ilen)
    (hletters : (frameSlot s.ibuf).type.letters = true)
    (hcrc : (frameSlot s.ibuf).crc = chunkChecksum (frameSlot s.ibuf).type (frameSlot s.ibuf).data) :
    exec (.chParse cd) s = .next (answered 0 { s with c := s.c.set cd (frameSlot s.ibuf) }) :=
  exec_chParse_of_match (by omega) rfl rfl hletters hn rfl rfl hcrc.symm

/-- A parse that answers with `ERR = 0` has found such a frame; every other outcome of R184 leaves an error code. -/
theorem frame_of_exec_chParse {cd : Index} {s t : State} (h : exec (.chParse cd) s = .next t) (herr : t.err = 0) :
    12 + (frameSlot s.ibuf).length.toNat ≤ s.ilen ∧ (frameSlot s.ibuf).type.letters = true ∧
      (frameSlot s.ibuf).crc = chunkChecksum (frameSlot s.ibuf).type (frameSlot s.ibuf).data := by
  have hfailed {cause : Cause} {exp act : Word64} :
      exec (.chParse cd) s ≠ .next (failedWith cause.code exp act s) := by
    intro he
    obtain rfl := Host.Outcome.next.inj (h.symm.trans he)
    exact code_ne_zero cause herr
  have hheader : 8 ≤ s.ilen := by
    by_contra hn
    exact hfailed (cause := .bufferTooShort) (exec_chParse_of_no_header (by omega))
  have hletters : (frameSlot s.ibuf).type.letters = true := by
    by_contra hl
    exact hfailed (cause := .invalidChunkType) (exec_chParse_of_not_letters hheader rfl hl)
  have hlong : 12 + (frameSlot s.ibuf).length.toNat ≤ s.ilen := by
    by_contra hn
    exact hfailed (cause := .bufferTooShort) (exec_chParse_of_cut hheader rfl rfl hletters (not_le.mp hn))
  refine ⟨hlong, hletters, ?_⟩
  by_contra hc
  exact hfailed (cause := .checksumMismatch)
    (exec_chParse_of_mismatch hheader rfl rfl hletters hlong rfl rfl (Ne.symm hc))

/-- The slots after a successful parse. -/
theorem readC_parsed (s : State) (m : Memory) (k j : Index) :
    (answered 0 { s with c := s.c.set k (frameSlot m) }).readC j = if j = k then frameSlot m else s.readC j :=
  readC_writeC s k j _ _ _ _

/-! ### The round trips (R97) -/

/-- `CH.SER` of a full slot that meets R25: the new `OBUF[0, OLEN)` is its frame. -/
theorem exec_chSer_frame {cs : Index} {s : State} (hv : (s.readC cs).valid = true)
    (hslot : SlotInvariant s.maxlen (s.readC cs)) :
    ∃ u, exec (.chSer cs) s = .next u ∧ u.olen = 12 + (s.readC cs).length.toNat ∧
      memRead u.obuf 0 u.olen = frameBytes (s.readC cs) := by
  obtain ⟨m, hu, hframe, -⟩ := delivers_storeFrame hslot
  rw [exec_chSer, withSlot_full hv]
  exact ⟨_, hu, rfl, hframe⟩

/-- Settles O33: the parsed slot is the one the frame spells, and its frame is that frame (`frameBytes_frameSlot`). -/
theorem serializeUndoesParse : Obligations.SerializeUndoesParse := by
  intro cd s t hcap ht herr hexact
  obtain ⟨hlong, hletters, hcrc⟩ := frame_of_exec_chParse ht herr
  obtain rfl := Host.Outcome.next.inj (ht.symm.trans (exec_chParse_frameSlot hlong hletters hcrc))
  have hread : (answered 0 { s with c := s.c.set cd (frameSlot s.ibuf) }).readC cd = frameSlot s.ibuf := by
    rw [readC_parsed, if_pos rfl]
  rw [hread] at hexact
  have hslot : SlotInvariant s.maxlen (frameSlot s.ibuf) :=
    { length_eq := (length_memRead ..).symm
      crc_eq := hcrc
      letters := hletters
      length_le := by rw [State.bufferCapacity] at hcap; omega }
  obtain ⟨u, hu, holen, hframe⟩ := exec_chSer_frame (by rw [hread]; rfl) (by rw [hread]; exact hslot)
  rw [hread] at holen hframe
  refine ⟨u, hu, holen.trans hexact.symm, ?_⟩
  rw [hframe, frameBytes_frameSlot, hexact]

/-- Settles O34: the bytes are the frame of the slot, which spells the slot (`frameSlot_of_frameBytes`), so it is
parsed to it; then both sources of `CH.EQ` are that slot. -/
theorem parseUndoesSerialize : Obligations.ParseUndoesSerialize := by
  intro ca cb s u v hv hslot hu hkept hbytes
  obtain ⟨u', hu', holen, hframe⟩ := exec_chSer_frame hv hslot
  obtain rfl := Host.Outcome.next.inj (hu.symm.trans hu')
  have hilen : v.ilen = 12 + (s.readC ca).length.toNat := by
    rw [← holen, ← length_memRead v.ibuf 0 v.ilen, hbytes, length_memRead]
  have hspell : frameSlot v.ibuf = s.readC ca :=
    frameSlot_of_frameBytes hv hslot.length_eq (by rw [← hilen, hbytes, hframe])
  have hparse := exec_chParse_frameSlot (cd := cb) (s := v) (by rw [hspell, hilen])
    (by rw [hspell]; exact hslot.letters) (by rw [hspell]; exact hslot.crc_eq)
  have hb : (answered 0 { v with c := v.c.set cb (frameSlot v.ibuf) }).readC cb = s.readC ca := by
    rw [readC_parsed, if_pos rfl, hspell]
  have ha : (answered 0 { v with c := v.c.set cb (frameSlot v.ibuf) }).readC ca = s.readC ca := by
    rw [readC_parsed, hspell, hkept, ite_self]
  refine ⟨_, _, hparse, hb, exec_chEq_full ha hb hv hv, ?_⟩
  rw [answered_responses, if_pos ⟨rfl, rfl, rfl, rfl⟩, List.head?_cons]

end Sys2Proof.Machine
end

section
/-! Handing a buffer over and taking one (spec/43_buffer_system.md R220, R224, R225, spec/30_encoding.md R110): what a
list of `IB.PUT` and a list of `OB.RD` do, and the statements O40 and O41. -/

namespace Sys2Proof.Machine

/-- One `IB.PUT` per byte, where the bytes fit, appends them at `ILEN`. -/
theorem execAll_ibPut (bytes : List Byte) (s : State) (h : s.ilen + bytes.length ≤ s.bufferCapacity) :
    ∃ t, execAll (bytes.map .ibPut) s = .next t ∧ t.ilen = s.ilen + bytes.length ∧
      t.ibuf = memWriteAll s.ibuf s.ilen bytes := by
  induction bytes generalizing s with
  | nil => exact ⟨s, rfl, rfl, rfl⟩
  | cons b bytes ih =>
    have hlength : s.ilen + (b :: bytes).length = s.ilen + 1 + bytes.length := by rw [List.length_cons]; omega
    rw [hlength] at h ⊢
    rw [List.map_cons, execAll_cons (exec_ibPut_of_lt (by omega))]
    exact ih _ h

/-- Settles O40: after `IB.CLR` the bytes are appended from offset 0 on. -/
theorem loadFillsInputBuffer : Obligations.LoadFillsInputBuffer := by
  intro bytes s h
  obtain ⟨t, ht, hilen, hibuf⟩ := execAll_ibPut bytes (answered 0 { s with ilen := 0 })
    ((Nat.zero_add bytes.length).trans_le h)
  rw [answered_ilen, Nat.zero_add] at hilen
  refine ⟨t, (execAll_cons (exec_ibClr s)).trans ht, hilen, ?_⟩
  rw [hilen, hibuf]
  exact memRead_memWriteAll s.ibuf 0 bytes

/-- Settles O41, by induction on the number of reads: the first reads the byte at `ORP`, the others go on from there. -/
theorem drainReadsOutputBuffer : Obligations.DrainReadsOutputBuffer := by
  intro n
  induction n with
  | zero => exact fun s _ => ⟨s, rfl, rfl, rfl⟩
  | succ n ih =>
    intro s h
    have hcount : s.orp + (n + 1) = s.orp + 1 + n := by omega
    rw [hcount] at h ⊢
    obtain ⟨t, ht, horp, hresponses⟩ := ih (answered (zext8 (s.obuf.read s.orp)) { s with orp := s.orp + 1 }) h
    refine ⟨t, (execAll_cons (exec_obRd_of_lt (by omega))).trans ht, horp, ?_⟩
    have hfirst : memRead s.obuf s.orp (n + 1) = s.obuf.read s.orp :: memRead s.obuf (s.orp + 1) n := by
      rw [Nat.add_comm, memRead_append]
      rfl
    rw [hresponses, hfirst, List.map_cons, List.reverse_cons, List.append_assoc]
    rfl

end Sys2Proof.Machine
end
